-- ==== Sys2Proof/Config.lean ====
section
/-! DEFINITION. The configuration of R4: every implementation parameter, with the values of this
hardware, and the free values: what the spec leaves unspecified. A free value is opaque, so no proof can
see what it is; `draw` tells one drawing of it from the next (log 5). -/

namespace Sys2Proof

/-! ### The closed sets of names the parameters speak of -/

/-- The 29 mnemonics, in the order of R89. -/
inductive Mnemonic where
  | nop | ret | halt
  | add | sub | mul | div | mod | neg | and | or | not
  | eq | ne | lt | le | gt | ge
  | input | print
  | shl | shr | rol | ror
  | push | pop | call | jump | jz
  deriving DecidableEq, Repr

/-- Every mnemonic, in the order of R89. -/
def Mnemonic.all : List Mnemonic :=
  [.nop, .ret, .halt, .add, .sub, .mul, .div, .mod, .neg, .and, .or, .not, .eq, .ne, .lt, .le,
   .gt, .ge, .input, .print, .shl, .shr, .rol, .ror, .push, .pop, .call, .jump, .jz]

/-- The base registers an operand can name (R21, R86). -/
inductive BaseReg where
  | sp | fp | ip
  deriving DecidableEq, Repr

/-- The three instruction formats of R80: `B`, `I` and `X`. -/
inductive Format where
  | basic | imm | packed
  deriving DecidableEq, Repr

/-- The byte orders `DATA_ENDIAN` of R4 chooses from. -/
inductive Config.Endian where
  | little | big
  deriving DecidableEq, Repr

/-- The readings `OVERFLOW` of R4 chooses from: wrap, or D16's stricter model that faults. -/
inductive Config.Overflow where
  | wrap | fault
  deriving DecidableEq, Repr

/-- The quotient roundings `DIV_ROUNDING` of R4 chooses from. -/
inductive Config.Rounding where
  | truncate | floor
  deriving DecidableEq, Repr

/-! ### The parameters -/

/-- The configuration: one field per parameter of R4. -/
structure Parameters where
  /-- `MEM_SIZE`: the bytes of machine memory (D30) -/
  memSize : Nat
  /-- `BYTE`: the bits of the addressable unit -/
  byteBits : Nat
  /-- `WORD`: the bits of a stack value, an immediate, and a data access of PUSH and POP -/
  wordBits : Nat
  /-- `SLOT`: `sp` moves by this much per push or pop (D9) -/
  slot : Nat
  /-- `OPC_BITS`: the operation code, the low bits of the opcode byte -/
  opcBits : Nat
  /-- `MODE_BITS`: the mode tag, the high bits of the opcode byte -/
  modeBits : Nat
  /-- `OPERAND16`: the bits of a packed operand or an absolute target -/
  operandBits : Nat
  /-- `TAG_BITS`: the register tag, the high bits of a packed operand (D5) -/
  tagBits : Nat
  /-- `DISP_BITS`: the signed displacement, the low bits of a packed operand (D5) -/
  dispBits : Nat
  /-- `TAG_SP`, `TAG_FP`, `TAG_IP` (D6) -/
  tag : BaseReg → Nat
  /-- `REG_BITS`: the bits of `ip`, `sp`, `fp`, `sb` (D10); `faddr` is as wide (R36) -/
  regBits : Nat
  /-- `OPC`: the operation code of each mnemonic (R89, D1) -/
  opc : Mnemonic → Nat
  /-- `DATA_ENDIAN`: the byte order of every 16-bit and 32-bit field (R53, R54, R55) -/
  dataEndian : Config.Endian
  /-- `DIV_ROUNDING`: the quotient rounding of DIV and the sign of MOD (D17) -/
  divRounding : Config.Rounding
  /-- `OVERFLOW`: what ADD, SUB, MUL, NEG and SHL do with a result out of range (D16) -/
  overflow : Config.Overflow

/-- The values R4 gives this hardware. Everything in the model reads a parameter from here. -/
abbrev parameters : Parameters where
  memSize := 16384
  byteBits := 8
  wordBits := 32
  slot := 4
  opcBits := 6
  modeBits := 2
  operandBits := 16
  tagBits := 2
  dispBits := 14
  tag
    | .sp => 0 | .fp => 1 | .ip => 2
  regBits := 32
  opc
    | .nop => 0x00 | .ret => 0x01 | .halt => 0x02 | .add => 0x03 | .sub => 0x04 | .mul => 0x05
    | .div => 0x06 | .mod => 0x07 | .neg => 0x08 | .and => 0x09 | .or => 0x0A | .not => 0x0B
    | .eq => 0x0C | .ne => 0x0D | .lt => 0x0E | .le => 0x0F | .gt => 0x10 | .ge => 0x11
    | .input => 0x12 | .print => 0x13 | .shl => 0x14 | .shr => 0x15 | .rol => 0x16 | .ror => 0x17
    | .push => 0x18 | .pop => 0x19 | .call => 0x1A | .jump => 0x1B | .jz => 0x1C
  dataEndian := .little
  divRounding := .truncate
  overflow := .wrap

/-- `MEM_SIZE` of this hardware. -/
abbrev Config.memSize : Nat := parameters.memSize
/-- `SLOT` of this hardware. -/
abbrev Config.slot : Nat := parameters.slot
/-- `BYTE` of this hardware. -/
abbrev Config.byteBits : Nat := parameters.byteBits
/-- `WORD` of this hardware. -/
abbrev Config.wordBits : Nat := parameters.wordBits
/-- `REG_BITS` of this hardware. -/
abbrev Config.regBits : Nat := parameters.regBits
/-- `OPERAND16` of this hardware. -/
abbrev Config.operandBits : Nat := parameters.operandBits
/-- `OPC_BITS` of this hardware. -/
abbrev Config.opcBits : Nat := parameters.opcBits
/-- `MODE_BITS` of this hardware. -/
abbrev Config.modeBits : Nat := parameters.modeBits
/-- `TAG_BITS` of this hardware. -/
abbrev Config.tagBits : Nat := parameters.tagBits
/-- `DISP_BITS` of this hardware. -/
abbrev Config.dispBits : Nat := parameters.dispBits
/-- `DATA_ENDIAN` of this hardware. -/
abbrev Config.dataEndian : Config.Endian := parameters.dataEndian
/-- `OVERFLOW` of this hardware. -/
abbrev Config.overflow : Config.Overflow := parameters.overflow
/-- `DIV_ROUNDING` of this hardware. -/
abbrev Config.divRounding : Config.Rounding := parameters.divRounding

/-- The operation code of a mnemonic, as the field of the opcode byte (R89). -/
def Config.opc (m : Mnemonic) : BitVec Config.opcBits := BitVec.ofNat Config.opcBits (parameters.opc m)

/-- The tag of a base register, as the field of a packed operand (R86). -/
def Config.tag (r : BaseReg) : BitVec Config.tagBits := BitVec.ofNat Config.tagBits (parameters.tag r)

/-- The mode tag of each format (R82, D2). -/
def Config.mode : Format → BitVec Config.modeBits
  | .basic => 0 | .imm => 1 | .packed => 2

/-- The bytes of a word: what an immediate and a data access take (R57, R84). -/
abbrev Config.wordSize : Nat := Config.wordBits / Config.byteBits

/-- The bytes of a packed operand or an absolute target (R85). -/
abbrev Config.operandSize : Nat := Config.operandBits / Config.byteBits

/-! ### The free values -/

/-- The free value of R67, D26, U6: the byte at an address that nothing has written, in a given
draw (log 4). The same on every read, since it depends on nothing else. -/
opaque Config.unwrittenByte : (draw addr : Nat) → BitVec Config.byteBits

/-- The free value of `ip` where the spec leaves it unspecified: after a fault (R219), after a
rejected Load and before any Load (R37). -/
opaque Config.freeIp : (draw : Nat) → BitVec Config.regBits
/-- The free value of `sp` in the same places. -/
opaque Config.freeSp : (draw : Nat) → BitVec Config.regBits
/-- The free value of `fp` in the same places. -/
opaque Config.freeFp : (draw : Nat) → BitVec Config.regBits
/-- The free value of `sb` before any Load and after a rejected one (R37). -/
opaque Config.freeSb : (draw : Nat) → BitVec Config.regBits
/-- The free value of `faddr` before any Load and after a rejected one (R37, U10). -/
opaque Config.freeFaddr : (draw : Nat) → BitVec Config.regBits
/-- The free value of `fkind`'s code before any Load (R37, U10). -/
opaque Config.freeFkind : (draw : Nat) → BitVec 3

/-- The free choice of U11: whether an INPUT whose push overflows has consumed its value (R202). -/
opaque Config.inputTakenOnFault : (draw : Nat) → Bool

end Sys2Proof
end

