-- ==== Sys2Proof/Word.lean ====
section
/-! DEFINITION. The words of the machine, as wide as the parameters of R4 say. -/

namespace Sys2Proof

/-- The addressable unit. -/
abbrev Byte := BitVec Config.byteBits

/-- A 16-bit operand field. -/
abbrev Half := BitVec Config.operandBits

/-- `W32` of R6: a stack value or an immediate. `toInt` is the rules' `s(v)` and `toNat` their
`u(v)`. -/
abbrev W32 := BitVec Config.wordBits

/-- The contents of a register (R36), two's complement. -/
abbrev Reg := BitVec Config.regBits

/-- A register's value as a stack value, both two's complement (R6, R192). -/
def wordOfReg (r : Reg) : W32 := r.signExtend Config.wordBits

/-- A stack value as a register's value, both two's complement (R6, R193). -/
def regOfWord (v : W32) : Reg := v.signExtend Config.regBits

/-- `wrap32` of R6: the pattern congruent to an integer modulo 2^32. -/
def wrap32 (n : Int) : W32 := BitVec.ofInt Config.wordBits n

/-- `INT_MIN` of R6. -/
def intMin : Int := -(2 ^ (Config.wordBits - 1))

/-- `INT_MAX` of R6. -/
def intMax : Int := 2 ^ (Config.wordBits - 1) - 1

end Sys2Proof
end

