-- ==== Sys2Proof/Syntax.lean ====
section
/-! DEFINITION. The instructions: one constructor per row of `spec/opcode_table.json` (R89). -/

namespace Sys2Proof

/-- The 30 encodings of R89. A displacement is the integer of R86 in bytes; a target is the 16-bit
field of R87; an immediate is the 32-bit pattern of R84. -/
inductive Instr where
  | nop | ret | halt
  | add | sub | mul | div | mod | neg | and | or | not
  | eq | ne | lt | le | gt | ge
  | input | print
  | shl | shr | rol | ror
  | pushImm (imm : W32)
  | pushInd (base : BaseReg) (disp : Int)
  | pop (base : BaseReg) (disp : Int)
  | call (target : Half)
  | jump (target : Half)
  | jz (target : Half)
  deriving DecidableEq, Repr

/-- The mnemonic of a row of R89. -/
def Instr.mnemonic : Instr → Mnemonic
  | .nop => .nop | .ret => .ret | .halt => .halt
  | .add => .add | .sub => .sub | .mul => .mul | .div => .div | .mod => .mod
  | .neg => .neg | .and => .and | .or => .or | .not => .not
  | .eq => .eq | .ne => .ne | .lt => .lt | .le => .le | .gt => .gt | .ge => .ge
  | .input => .input | .print => .print
  | .shl => .shl | .shr => .shr | .rol => .rol | .ror => .ror
  | .pushImm _ => .push | .pushInd _ _ => .push | .pop _ _ => .pop
  | .call _ => .call | .jump _ => .jump | .jz _ => .jz

/-- The format of a row of R89. -/
def Instr.format : Instr → Format
  | .nop | .ret | .halt | .add | .sub | .mul | .div | .mod | .neg | .and | .or | .not
  | .eq | .ne | .lt | .le | .gt | .ge | .input | .print | .shl | .shr | .rol | .ror => .basic
  | .pushImm _ => .imm
  | .pushInd _ _ | .pop _ _ | .call _ | .jump _ | .jz _ => .packed

end Sys2Proof
end

