-- ==== Sys2Proof/WellFormed.lean ====
section
/-! DEFINITION. Which instructions an encoding can hold. -/

namespace Sys2Proof

/-- The displacements of R86 and R183: what `DISP_BITS` signed bits hold, -8192 to 8191. -/
def dispInRange (disp : Int) : Bool :=
  decide (-(2 ^ (Config.dispBits - 1)) ≤ disp) && decide (disp < 2 ^ (Config.dispBits - 1))

/-- An instruction is well-formed when each operand fits its field. Immediates and targets fill
their fields, so only displacements can be out of range (R93: no other operand value is illegal;
the reserved register tag is no `BaseReg`). -/
def Instr.wellFormed : Instr → Bool
  | .nop | .ret | .halt | .add | .sub | .mul | .div | .mod | .neg | .and | .or | .not
  | .eq | .ne | .lt | .le | .gt | .ge | .input | .print | .shl | .shr | .rol | .ror => true
  | .pushImm _ => true
  | .pushInd _ disp => dispInRange disp
  | .pop _ disp => dispInRange disp
  | .call _ | .jump _ | .jz _ => true

end Sys2Proof
end

