-- ==== Sys2Proof/Decode.lean ====
section
/-! DEFINITION. The decoder, total on any bytes and rejecting by name, and after it the encoder
(R80 to R95). -/

namespace Sys2Proof

/-- The unsigned value of a byte sequence in ascending address order (R51, R53 to R55). -/
def valueOfBytes : Config.Endian → List Byte → Nat
  | .little, bs => bs.foldr (fun b acc => b.toNat + 2 ^ Config.byteBits * acc) 0
  | .big, bs => bs.foldl (fun acc b => b.toNat + 2 ^ Config.byteBits * acc) 0

/-- The `n` low bytes of a number, least significant first. -/
def littleBytes : Nat → Nat → List Byte
  | 0, _ => []
  | n + 1, v => BitVec.ofNat Config.byteBits v :: littleBytes n (v / 2 ^ Config.byteBits)

/-- The `n` bytes that hold a number, in ascending address order (R52 to R55). -/
def bytesOfValue : Config.Endian → Nat → Nat → List Byte
  | .little, n, v => littleBytes n v
  | .big, n, v => (littleBytes n v).reverse

/-- The bytes after the opcode byte (R80, R94). -/
def Format.operandLength : Format → Nat
  | .basic => 0
  | .imm => Config.wordSize
  | .packed => Config.operandSize

/-- The length of an instruction in bytes: 1, 5 or 3 (R80, R94). -/
def Format.length (f : Format) : Nat := 1 + f.operandLength

/-- The length of an instruction: its format's (R94). -/
def Instr.length (i : Instr) : Nat := i.format.length

/-- The mode tag of an opcode byte, bits 7:6 (R81, R82). -/
def modeField (b : Byte) : BitVec Config.modeBits :=
  b.extractLsb' Config.opcBits Config.modeBits

/-- The operation code of an opcode byte, bits 5:0 (R81). -/
def opcField (b : Byte) : BitVec Config.opcBits := b.extractLsb' 0 Config.opcBits

/-- The format a mode tag selects; tag `11` selects none (R82, R83). -/
def formatOfMode (mode : BitVec Config.modeBits) : Option Format :=
  [Format.basic, Format.imm, Format.packed].find? (fun f => Config.mode f == mode)

/-- The mnemonic an operation code selects, if it is in the known set (R89, R91). -/
def mnemonicOfOpc (opc : BitVec Config.opcBits) : Option Mnemonic :=
  Mnemonic.all.find? (fun m => Config.opc m == opc)

/-- The base register a tag selects; tag 3 is reserved (R86, R93). -/
def baseOfTag (tag : BitVec Config.tagBits) : Option BaseReg :=
  [BaseReg.sp, BaseReg.fp, BaseReg.ip].find? (fun r => Config.tag r == tag)

/-- Why bytes are no instruction. All but `truncated` are the `DecodeFault` of R212. -/
inductive Reject where
  /-- mode tag `11` (R83) -/
  | reservedMode
  /-- an operation code that is not in the known set (R91) -/
  | unknownOpcode
  /-- a known operation code in a mode that is not its row (R92) -/
  | wrongMode
  /-- register tag 3 (R93) -/
  | reservedTag
  /-- fewer bytes than the instruction has -/
  | truncated
  deriving DecidableEq, Repr

/-- A row of R89 whose operand is still to be read: how the operand field is read is decided by the
operation code, never by the bits of the field (R88). -/
inductive Shape where
  | plain (i : Instr)
  | imm (make : W32 → Instr)
  | baseDisp (make : BaseReg → Int → Instr)
  | target (make : Half → Instr)

/-- The format of a row. -/
def Shape.format : Shape → Format
  | .plain _ => .basic
  | .imm _ => .imm
  | .baseDisp _ => .packed
  | .target _ => .packed

/-- The rows of R89: a mnemonic in a format, or nothing where the pair is no row (R90, R92). -/
def shapeOf : Mnemonic → Format → Option Shape
  | .nop, .basic => some (.plain .nop)
  | .ret, .basic => some (.plain .ret)
  | .halt, .basic => some (.plain .halt)
  | .add, .basic => some (.plain .add)
  | .sub, .basic => some (.plain .sub)
  | .mul, .basic => some (.plain .mul)
  | .div, .basic => some (.plain .div)
  | .mod, .basic => some (.plain .mod)
  | .neg, .basic => some (.plain .neg)
  | .and, .basic => some (.plain .and)
  | .or, .basic => some (.plain .or)
  | .not, .basic => some (.plain .not)
  | .eq, .basic => some (.plain .eq)
  | .ne, .basic => some (.plain .ne)
  | .lt, .basic => some (.plain .lt)
  | .le, .basic => some (.plain .le)
  | .gt, .basic => some (.plain .gt)
  | .ge, .basic => some (.plain .ge)
  | .input, .basic => some (.plain .input)
  | .print, .basic => some (.plain .print)
  | .shl, .basic => some (.plain .shl)
  | .shr, .basic => some (.plain .shr)
  | .rol, .basic => some (.plain .rol)
  | .ror, .basic => some (.plain .ror)
  | .push, .imm => some (.imm .pushImm)
  | .push, .packed => some (.baseDisp .pushInd)
  | .pop, .packed => some (.baseDisp .pop)
  | .call, .packed => some (.target .call)
  | .jump, .packed => some (.target .jump)
  | .jz, .packed => some (.target .jz)
  | _, _ => none

/-- Decoding the opcode byte: the mode is masked off, then the pair (`opc`, `mode`) is looked up
(R81, R122, R90). -/
def decodeOpcode (b : Byte) : Except Reject Shape :=
  match formatOfMode (modeField b) with
  | none => .error .reservedMode
  | some f =>
    match mnemonicOfOpc (opcField b) with
    | none => .error .unknownOpcode
    | some m =>
      match shapeOf m f with
      | none => .error .wrongMode
      | some sh => .ok sh

/-- Decoding the operand field, whose bytes are given (R84 to R88, R93). -/
def decodeOperand : Shape → List Byte → Except Reject Instr
  | .plain i, _ => .ok i
  | .imm make, bs => .ok (make (BitVec.ofNat Config.wordBits (valueOfBytes Config.dataEndian bs)))
  | .baseDisp make, bs =>
    let w : Half := BitVec.ofNat Config.operandBits (valueOfBytes Config.dataEndian bs)
    match baseOfTag (w.extractLsb' Config.dispBits Config.tagBits) with
    | none => .error .reservedTag
    | some r => .ok (make r (w.extractLsb' 0 Config.dispBits).toInt)
  | .target make, bs => .ok (make (BitVec.ofNat Config.operandBits (valueOfBytes Config.dataEndian bs)))

/-- Decoding a byte sequence: the instruction at its start and the bytes after it (R80, R95). -/
def decode : List Byte → Except Reject (Instr × List Byte)
  | [] => .error .truncated
  | b :: rest =>
    match decodeOpcode b with
    | .error e => .error e
    | .ok sh =>
      if rest.length < sh.format.operandLength then .error .truncated
      else
        match decodeOperand sh (rest.take sh.format.operandLength) with
        | .error e => .error e
        | .ok i => .ok (i, rest.drop sh.format.operandLength)

/-- The opcode byte `64 * mode + opc` (R81). -/
def opcodeByte (i : Instr) : Byte := Config.mode i.format ++ Config.opc i.mnemonic

/-- The packed operand `w = 16384 * tag + (disp mod 16384)` (R86, R105). -/
def packedOperand (base : BaseReg) (disp : Int) : Half :=
  Config.tag base ++ BitVec.ofInt Config.dispBits disp

/-- The operand bytes of an instruction, in ascending address order (R80, R84 to R87). -/
def operandBytes : Instr → List Byte
  | .nop | .ret | .halt | .add | .sub | .mul | .div | .mod | .neg | .and | .or | .not
  | .eq | .ne | .lt | .le | .gt | .ge | .input | .print | .shl | .shr | .rol | .ror => []
  | .pushImm imm => bytesOfValue Config.dataEndian Config.wordSize imm.toNat
  | .pushInd base disp => bytesOfValue Config.dataEndian Config.operandSize (packedOperand base disp).toNat
  | .pop base disp => bytesOfValue Config.dataEndian Config.operandSize (packedOperand base disp).toNat
  | .call target => bytesOfValue Config.dataEndian Config.operandSize target.toNat
  | .jump target => bytesOfValue Config.dataEndian Config.operandSize target.toNat
  | .jz target => bytesOfValue Config.dataEndian Config.operandSize target.toNat

/-- The bytes of a well-formed instruction (R80, R89). -/
def encode (i : Instr) : List Byte := opcodeByte i :: operandBytes i

/-- The bytes of an instruction given as one number in the opcode table's numbering: byte `k` is bits
8k+7 to 8k, every bit from `nbits` up is 0, and format `I` is the longest (R80). -/
def tableBytes (nbits w : Nat) : List Byte := littleBytes Format.imm.length (w % 2 ^ nbits)

/-- The instruction the decoder reads from a word of the opcode table. -/
def decodeTableWord (nbits w : Nat) : Option Instr :=
  match decode (tableBytes nbits w) with
  | .ok (i, _) => some i
  | .error _ => none

end Sys2Proof
end

