-- ==== Sys2Proof/Machine/State.lean ====
section
/-! DEFINITION. The state of the unit (R20), as plain data, and how a step can stop. -/

namespace Sys2Proof.Machine

/-- The run status (R26). -/
inductive Status where
  /-- no image has been loaded since power-on -/
  | idle
  /-- set by a successful Load; the unit executes instructions -/
  | running
  /-- set by HALT -/
  | halted
  /-- set by any fault -/
  | faulted
  deriving DecidableEq, Repr

/-- The suggested encoding of R26; no instruction can read it. -/
def Status.code : Status → BitVec 2
  | .idle => 0 | .running => 1 | .halted => 2 | .faulted => 3

/-- The kinds of fault the record can hold (R210). -/
inductive FKind where
  /-- no fault recorded -/
  | none
  /-- a pop with `sp - 4 < sb` (R211) -/
  | stackUnderflow
  /-- the opcode byte or register tag selects no instruction (R212) -/
  | decodeFault
  /-- a push outside memory (R213) -/
  | stackOverflow
  /-- a data access outside memory (R214) -/
  | memoryBounds
  /-- an opcode or operand fetch outside memory (R215) -/
  | fetchBounds
  /-- DIV or MOD with divisor 0, or `INT_MIN` by -1 (R216) -/
  | arithmeticFault
  /-- Load of more than `MEM_SIZE` bytes (R217) -/
  | loadFault
  deriving DecidableEq, Repr

/-- The code of a fault kind (R210, D23). -/
def FKind.code : FKind → BitVec 3
  | .none => 0 | .stackUnderflow => 1 | .decodeFault => 2 | .stackOverflow => 3
  | .memoryBounds => 4 | .fetchBounds => 5 | .arithmeticFault => 6 | .loadFault => 7

/-- The fault kind of a code: all eight codes have one (R210). -/
def FKind.ofCode (c : BitVec 3) : FKind :=
  match c.toNat with
  | 0 => .none | 1 => .stackUnderflow | 2 => .decodeFault | 3 => .stackOverflow
  | 4 => .memoryBounds | 5 => .fetchBounds | 6 => .arithmeticFault | _ => .loadFault

/-- The bytes of `M` that something has written, as address and byte. -/
abbrev Cells := List Host.Cell

/-- The canonical form of the written bytes: addresses strictly rise and lie inside the array (R50). An
unlisted address holds no written byte, so no entry can repeat one. -/
abbrev Cells.Wf (m : Cells) : Prop :=
  m.Pairwise (fun c d => c.1 < d.1) ∧ ∀ c ∈ m, c.1 < Config.memSize

/-- The contents of machine memory `M` (R28): the bytes written so far, and, for every other byte, the
draw of R67 its unspecified value comes from. The two together fix what every address reads as. -/
structure Memory where
  /-- the bytes a Load or a store has written -/
  cells : Cells
  /-- which draw the bytes nothing has written read from, a value of R67; Load and a fault take the
  next one (log 5) -/
  draw : Nat
  deriving DecidableEq, Repr

/-- The canonical form of memory. -/
abbrev Memory.Wf (m : Memory) : Prop := Cells.Wf m.cells

/-- The state of the unit: the eight elements of R20, and the two channels of R31 and R32. -/
structure State where
  /-- next fetch offset (R22) -/
  ip : Reg
  /-- next free stack slot offset (R23) -/
  sp : Reg
  /-- current call frame base (R24) -/
  fp : Reg
  /-- stack base: the image length of the last Load (R25) -/
  sb : Reg
  /-- run status (R26) -/
  status : Status
  /-- kind of the recorded fault (R27) -/
  fkind : FKind
  /-- address recorded with the fault (R27) -/
  faddr : Reg
  /-- machine memory (R28) -/
  mem : Memory
  /-- values the host has supplied on `IN` and no INPUT has taken, oldest first (R31) -/
  input : List W32
  /-- the record of `OUT` since the last Load, oldest first (R32) -/
  output : List W32
  deriving DecidableEq, Repr

/-- The state after the reset, which is Load (R240, R242), of the empty image (R243). The spec gives
`ip`, `sp`, `fp`, `sb`, `status` and `output`; DESIGN CHOICE for `fkind`, `faddr` (log 2), `input`
(log 3) and the number of memory's draw (log 5). -/
def State.reset : State where
  ip := 0
  sp := 0
  fp := 0
  sb := 0
  status := .running
  fkind := .none
  faddr := 0
  mem := { cells := [], draw := 1 }
  input := []
  output := []

/-- Why a step does not exist: a step is asked for while the unit is not `RUNNING` (R120, D42). Raised
by `step` alone, never by an instruction. All three are safe: the spec has no transition there. -/
inductive Fault where
  /-- raised by `step` in `IDLE`: no image has been loaded (safe) -/
  | idle
  /-- raised by `step` in `HALTED`: the run is over, "no further instruction" (safe) -/
  | halted
  /-- raised by `step` in `FAULTED`: the fault was recorded by an earlier step (safe) -/
  | faulted
  deriving DecidableEq, Repr

/-- Instructions without a meaning. -/
inductive Refusal where
  /-- raised by `exec` for an instruction that has no meaning yet (safe); no arm raises it now -/
  | notModelled (mnemonic : String)
  deriving DecidableEq, Repr

end Sys2Proof.Machine
end

