-- ==== Sys2Proof/Machine/Ops.lean ====
section
/-! DEFINITION. The named operations over memory and registers: memory access, the stack
primitives, raising a fault, fetching an instruction, and Load. -/

namespace Sys2Proof.Machine

/-! ### Field updates -/

/-- `ip <- v`. -/
def State.withIp (v : Reg) (s : State) : State := { s with ip := v }
/-- `sp <- v`. -/
def State.withSp (v : Reg) (s : State) : State := { s with sp := v }
/-- `fp <- v`. -/
def State.withFp (v : Reg) (s : State) : State := { s with fp := v }
/-- `status <- v`. -/
def State.withStatus (v : Status) (s : State) : State := { s with status := v }
/-- Replaces the contents of `M`. -/
def State.withMem (m : Memory) (s : State) : State := { s with mem := m }
/-- Replaces the values waiting on `IN`. -/
def State.withInput (vs : List W32) (s : State) : State := { s with input := vs }
/-- Replaces the record of `OUT`. -/
def State.withOutput (vs : List W32) (s : State) : State := { s with output := vs }

/-! ### Bytes of memory -/

/-- The byte written at an address, if one was, in a list of written bytes. -/
def Cells.get? : Cells → Nat → Option Byte
  | [], _ => none
  | (k, v) :: m, a => if k = a then some v else Cells.get? m a

/-- Writes one byte, keeping the canonical form. -/
def Cells.set : Cells → Nat → Byte → Cells
  | [], a, v => [(a, v)]
  | (k, w) :: m, a, v =>
    if a < k then (a, v) :: (k, w) :: m
    else if a = k then (a, v) :: m
    else (k, w) :: Cells.set m a v

/-- Writes a byte sequence at ascending addresses from `a`. -/
def Cells.write : Cells → Nat → List Byte → Cells
  | m, _, [] => m
  | m, a, b :: bs => Cells.write (Cells.set m a b) (a + 1) bs

/-- The byte written at an address, if one was. -/
def Memory.get? (m : Memory) (a : Nat) : Option Byte := Cells.get? m.cells a

/-- Writes a byte sequence at ascending addresses from `a`; the bytes nothing has written stay those
of the same draw. -/
def Memory.write (m : Memory) (a : Nat) (bs : List Byte) : Memory :=
  { m with cells := Cells.write m.cells a bs }

/-- Memory of which every byte is unspecified, unrelated to what it held: no byte is written and the
rest come from the next draw (R67, R219, R37). -/
def Memory.redrawn (m : Memory) : Memory := { cells := [], draw := m.draw + 1 }

/-- The byte at an address: the one last written there, or, where nothing has written, the
unspecified byte of R67, which stays the same until written. -/
def State.byte (s : State) (a : Nat) : Byte :=
  (s.mem.get? a).getD (Config.unwrittenByte s.mem.draw a)

/-- The `n` bytes from address `a`, in ascending order. -/
def State.bytes (s : State) (a n : Nat) : List Byte := (List.range n).map (fun i => s.byte (a + i))

/-- The 32-bit word whose bytes are given in ascending address order (R55). -/
def wordOfBytes (bs : List Byte) : W32 := BitVec.ofNat Config.wordBits (valueOfBytes Config.dataEndian bs)

/-- The four bytes of a 32-bit word, in ascending address order (R55). -/
def bytesOfWord (v : W32) : List Byte := bytesOfValue Config.dataEndian Config.wordSize v.toNat

/-- The word in the four bytes from address `a`. -/
def State.word (s : State) (a : Nat) : W32 := wordOfBytes (s.bytes a Config.wordSize)

/-! ### Memory accesses (R51, R52) -/

/-- What an access is for; it decides the fault of an access outside memory (R51). -/
inductive Access where
  | fetch | data
  deriving DecidableEq, Repr

/-- The fault of a read outside memory (R51). -/
def Access.fault : Access → FKind
  | .fetch => .fetchBounds
  | .data => .memoryBounds

/-- The `n` bytes from `addr` to `addr + n - 1` lie inside memory (R51). -/
abbrev inMemory (addr : Int) (n : Nat) : Prop := 0 ≤ addr ∧ addr + n ≤ Config.memSize

/-- `MemRead(addr, n)` of R51; the bytes in ascending address order. -/
def memRead (acc : Access) (addr : Int) (n : Nat) (s : State) : Except FKind (List Byte) :=
  if inMemory addr n then .ok (s.bytes addr.toNat n) else .error acc.fault

/-- `MemRead(addr, 4)`, a word, as a data access (R51, R55). -/
def readWord (addr : Int) (s : State) : Except FKind W32 :=
  match memRead .data addr Config.wordSize s with
  | .error k => .error k
  | .ok bs => .ok (wordOfBytes bs)

/-- `MemWrite(addr, 4, v)`, a word, of R52. -/
def memWrite (addr : Int) (v : W32) (s : State) : Except FKind State :=
  if inMemory addr Config.wordSize then .ok (s.withMem (Memory.write s.mem addr.toNat (bytesOfWord v)))
  else .error .memoryBounds

/-! ### Stack primitives (R60, R61) -/

/-- `Push32(v)` of R60. -/
def push32 (v : W32) (s : State) : Except FKind State :=
  if inMemory s.sp.toInt Config.slot then
    match memWrite s.sp.toInt v s with
    | .error k => .error k
    | .ok s' => .ok (s'.withSp (s'.sp + BitVec.ofNat Config.regBits Config.slot))
  else .error .stackOverflow

/-- `Pop32()` of R61: the word popped and the state after. The underflow check stands before the
bounds check, and both before `sp` moves. -/
def pop32 (s : State) : Except FKind (W32 × State) :=
  if s.sp.toInt - Config.slot < s.sb.toInt then .error .stackUnderflow
  else if Config.memSize < s.sp.toInt then .error .memoryBounds
  else
    let s' := s.withSp (s.sp - BitVec.ofNat Config.regBits Config.slot)
    match readWord s'.sp.toInt s' with
    | .error k => .error k
    | .ok v => .ok (v, s')

/-! ### Raising a fault (R218, R219) -/

/-- `raise K(a)` of R218, the one fault entry of the unit: `status`, `fkind` and `faddr` take the
record. Everything else the faulting instruction may have touched is unspecified (R219) and takes
free values: `ip`, `sp`, `fp`, and all of `M`. Values already
output stay output (R219); `sb` is written by Load only (R25). -/
def raise (k : FKind) (a : Reg) (s : State) : State :=
  { ip := Config.freeIp s.mem.redrawn.draw
    sp := Config.freeSp s.mem.redrawn.draw
    fp := Config.freeFp s.mem.redrawn.draw
    sb := s.sb
    status := .faulted
    fkind := k
    faddr := a
    mem := s.mem.redrawn
    input := s.input
    output := s.output }

/-- The end of an instruction that began in `s`: its last state, or the fault its Operation raised
first, recorded with `pc0`, the `ip` of `s` (R218, D24). -/
def complete (s : State) : Except FKind State → Host.Outcome State Fault Refusal
  | .ok s' => .next s'
  | .error k => .next (raise k s.ip s)

/-! ### Fetch (R121 to R123) -/

/-- `ip` after the fetch of an instruction of format `f` that began in `s`: `pc0 + length` (R124). -/
def State.fetched (f : Format) (s : State) : State :=
  s.withIp (s.ip + BitVec.ofNat Config.regBits f.length)

/-- Fetch and decode at `ip` (R121 to R123), with the faults in the order of R221: the opcode byte
outside memory, no instruction, the operand field outside memory, the reserved register tag. -/
def fetch (s : State) : Except FKind Instr :=
  match memRead .fetch s.ip.toInt 1 s with
  | .error k => .error k
  | .ok bs =>
    match decodeOpcode (BitVec.ofNat Config.byteBits (valueOfBytes Config.dataEndian bs)) with
    | .error _ => .error .decodeFault
    | .ok sh =>
      match memRead .fetch (s.ip.toInt + 1) sh.format.operandLength s with
      | .error k => .error k
      | .ok operand =>
        match decodeOperand sh operand with
        | .error _ => .error .decodeFault
        | .ok i => .ok i

/-! ### Load, power-on and supply (R31, R240, R241) -/

/-- The state before the first Load (R37, R241): `IDLE`, the OUT record empty, everything else a
free value; the host has supplied no input (log 3, log 11). -/
def State.powerOn : State where
  ip := Config.freeIp 0
  sp := Config.freeSp 0
  fp := Config.freeFp 0
  sb := Config.freeSb 0
  status := .idle
  fkind := .ofCode (Config.freeFkind 0)
  faddr := Config.freeFaddr 0
  mem := { cells := [], draw := 0 }
  input := []
  output := []

/-- A Load that is accepted (R240). Bytes of `M` from the image length upward are unspecified
afterwards (R67). `fkind` and `faddr` take their reset values (log 2). -/
def State.loadAccepted (image : List Byte) (s : State) : State :=
  { ip := 0
    sp := BitVec.ofNat Config.regBits image.length
    fp := BitVec.ofNat Config.regBits image.length
    sb := BitVec.ofNat Config.regBits image.length
    status := .running
    fkind := .none
    faddr := 0
    mem := s.mem.redrawn.write 0 image
    input := s.input
    output := [] }

/-- A Load that is rejected (R240, R37): `FAULTED` with `LoadFault`, the OUT record empty, every
other element unspecified, so a free value. -/
def State.loadRejected (s : State) : State :=
  { ip := Config.freeIp s.mem.redrawn.draw
    sp := Config.freeSp s.mem.redrawn.draw
    fp := Config.freeFp s.mem.redrawn.draw
    sb := Config.freeSb s.mem.redrawn.draw
    status := .faulted
    fkind := .loadFault
    faddr := Config.freeFaddr s.mem.redrawn.draw
    mem := s.mem.redrawn
    input := s.input
    output := [] }

/-- Load (R33, R240, R242): the host's operation, in any status, between steps. The comparison is
strict: an image of exactly `MEM_SIZE` bytes loads. -/
def State.load (image : List Byte) (s : State) : State :=
  if Config.memSize < image.length then s.loadRejected else s.loadAccepted image

/-- The host supplies one more value on `IN` (R31). -/
def State.supply (v : W32) (s : State) : State := s.withInput (s.input ++ [v])

end Sys2Proof.Machine
end

