-- ==== Sys2Proof/Machine/Flags.lean ====
section
/-! DEFINITION. The machine has no flags, condition codes or predicate registers, and no instruction
has a flag side effect (R29). What stands in their place: a comparison's result is the stack value 1
or 0, and JZ tests a value it pops.
Overflow sets nothing; what it does instead is the `OVERFLOW` parameter's. -/

namespace Sys2Proof.Machine

/-- "Comparison ops push 1 for true, 0 for false" (R160). -/
def truthWord (holds : Bool) : W32 := if holds then 1 else 0

/-- JZ's test: all 32 bits zero (R191). -/
def isZero (v : W32) : Bool := v == 0

/-- The 32-bit pattern of an exact result, under the `OVERFLOW` parameter (R4, D16): wrapped modulo
2^32, or, in D16's stricter model, a fault when the result is not in range. -/
def narrow : Config.Overflow → Int → Except FKind W32
  | .wrap, n => .ok (wrap32 n)
  | .fault, n => if intMin ≤ n ∧ n ≤ intMax then .ok (wrap32 n) else .error .arithmeticFault

end Sys2Proof.Machine
end

