-- ==== Sys2Proof/Machine/Operands.lean ====
section
/-! DEFINITION. The operand forms: the effective address of a packed operand, the target of a control
transfer, and the two shapes that take their operands from the stack. -/

namespace Sys2Proof.Machine

/-- The current value of a base register (R86, R126). -/
def State.baseReg (s : State) : BaseReg → Reg
  | .sp => s.sp
  | .fp => s.fp
  | .ip => s.ip

/-- `ResolveEA` of R126, on unbounded integers, of a state whose operand has been fetched: with base
`ip` it counts from the next instruction (D11). It raises nothing; the access checks the range. -/
def resolveEA (base : BaseReg) (disp : Int) (s : State) : Int := (s.baseReg base).toInt + disp

/-- The absolute target of an `XA` operand, `zext_16(w)` (R87). -/
def targetAddress (target : Half) : Reg := target.setWidth Config.regBits

/-- The binary shape of R140: pop the right operand, pop the left operand, push `op(left, right)`. -/
def binary (op : W32 → W32 → Except FKind W32) (s : State) : Except FKind State :=
  match pop32 s with
  | .error k => .error k
  | .ok (right, s₁) =>
    match pop32 s₁ with
    | .error k => .error k
    | .ok (left, s₂) =>
      match op left right with
      | .error k => .error k
      | .ok v => push32 v s₂

/-- The unary shape of R150: pop one value, push `op(v)`. -/
def unary (op : W32 → Except FKind W32) (s : State) : Except FKind State :=
  match pop32 s with
  | .error k => .error k
  | .ok (v, s₁) =>
    match op v with
    | .error k => .error k
    | .ok r => push32 r s₁

/-- A whole instruction of the binary shape: format `B`, one byte. -/
def binaryInstr (op : W32 → W32 → Except FKind W32) (s : State) :
    Host.Outcome State Fault Refusal :=
  complete s (binary op (s.fetched .basic))

/-- A whole instruction of the unary shape: format `B`, one byte. -/
def unaryInstr (op : W32 → Except FKind W32) (s : State) : Host.Outcome State Fault Refusal :=
  complete s (unary op (s.fetched .basic))

end Sys2Proof.Machine
end

