-- ==== Sys2Proof/Machine/Arith.lean ====
section
/-! DEFINITION. ADD SUB MUL DIV MOD AND OR NEG NOT (R140 to R151). -/

namespace Sys2Proof.Machine

/-- The rounded quotient of two integers, under `DIV_ROUNDING` (R4, R144, D17). -/
def quotient : Config.Rounding → Int → Int → Int
  | .truncate, l, r => l.tdiv r
  | .floor, l, r => l.fdiv r

/-- ADD's function (R141). -/
def addOp (l r : W32) : Except FKind W32 := narrow Config.overflow (l.toInt + r.toInt)

/-- SUB's function: left minus right (R142). -/
def subOp (l r : W32) : Except FKind W32 := narrow Config.overflow (l.toInt - r.toInt)

/-- MUL's function: the low 32 bits of the product (R143). -/
def mulOp (l r : W32) : Except FKind W32 := narrow Config.overflow (l.toInt * r.toInt)

/-- The cases in which DIV and MOD fault: a zero divisor, and `INT_MIN` by -1 (R144, R145, D18). -/
abbrev divisionFaults (l r : W32) : Prop := r.toInt = 0 ∨ (l.toInt = intMin ∧ r.toInt = -1)

/-- DIV's function (R144). -/
def divOp (l r : W32) : Except FKind W32 :=
  if divisionFaults l r then .error .arithmeticFault
  else .ok (wrap32 (quotient Config.divRounding l.toInt r.toInt))

/-- MOD's function: the remainder that goes with DIV's quotient (R145). -/
def modOp (l r : W32) : Except FKind W32 :=
  if divisionFaults l r then .error .arithmeticFault
  else .ok (wrap32 (l.toInt - r.toInt * quotient Config.divRounding l.toInt r.toInt))

/-- AND's function, bit by bit (R146, D20). -/
def andOp (l r : W32) : Except FKind W32 := .ok (l &&& r)

/-- OR's function, bit by bit (R147, D20). -/
def orOp (l r : W32) : Except FKind W32 := .ok (l ||| r)

/-- NEG's function (R148). -/
def negOp (v : W32) : Except FKind W32 := narrow Config.overflow (0 - v.toInt)

/-- NOT's function, the bitwise complement (R149). -/
def notOp (v : W32) : Except FKind W32 := .ok (~~~v)

/-- ADD (R141). -/
def execAdd (s : State) : Host.Outcome State Fault Refusal := binaryInstr addOp s
/-- SUB (R142). -/
def execSub (s : State) : Host.Outcome State Fault Refusal := binaryInstr subOp s
/-- MUL (R143). -/
def execMul (s : State) : Host.Outcome State Fault Refusal := binaryInstr mulOp s
/-- DIV (R144). -/
def execDiv (s : State) : Host.Outcome State Fault Refusal := binaryInstr divOp s
/-- MOD (R145). -/
def execMod (s : State) : Host.Outcome State Fault Refusal := binaryInstr modOp s
/-- AND (R146). -/
def execAnd (s : State) : Host.Outcome State Fault Refusal := binaryInstr andOp s
/-- OR (R147). -/
def execOr (s : State) : Host.Outcome State Fault Refusal := binaryInstr orOp s
/-- NEG (R148). -/
def execNeg (s : State) : Host.Outcome State Fault Refusal := unaryInstr negOp s
/-- NOT (R149). -/
def execNot (s : State) : Host.Outcome State Fault Refusal := unaryInstr notOp s

end Sys2Proof.Machine
end

