-- ==== Sys2Proof/Machine/Compare.lean ====
section
/-! DEFINITION. EQ NE LT LE GT GE (R160 to R166). The relation is `left REL right`; the ordered ones
compare the signed readings, exactly (D19). -/

namespace Sys2Proof.Machine

/-- EQ's function: equality of the patterns (R161). -/
def eqOp (l r : W32) : Except FKind W32 := .ok (truthWord (l == r))
/-- NE's function (R162). -/
def neOp (l r : W32) : Except FKind W32 := .ok (truthWord (l != r))
/-- LT's function (R163). -/
def ltOp (l r : W32) : Except FKind W32 := .ok (truthWord (decide (l.toInt < r.toInt)))
/-- LE's function (R164). -/
def leOp (l r : W32) : Except FKind W32 := .ok (truthWord (decide (l.toInt ≤ r.toInt)))
/-- GT's function (R165). -/
def gtOp (l r : W32) : Except FKind W32 := .ok (truthWord (decide (l.toInt > r.toInt)))
/-- GE's function (R166). -/
def geOp (l r : W32) : Except FKind W32 := .ok (truthWord (decide (l.toInt ≥ r.toInt)))

/-- EQ (R161). -/
def execEq (s : State) : Host.Outcome State Fault Refusal := binaryInstr eqOp s
/-- NE (R162). -/
def execNe (s : State) : Host.Outcome State Fault Refusal := binaryInstr neOp s
/-- LT (R163). -/
def execLt (s : State) : Host.Outcome State Fault Refusal := binaryInstr ltOp s
/-- LE (R164). -/
def execLe (s : State) : Host.Outcome State Fault Refusal := binaryInstr leOp s
/-- GT (R165). -/
def execGt (s : State) : Host.Outcome State Fault Refusal := binaryInstr gtOp s
/-- GE (R166). -/
def execGe (s : State) : Host.Outcome State Fault Refusal := binaryInstr geOp s

end Sys2Proof.Machine
end

