-- ==== Sys2Proof/Machine/Control.lean ====
section
/-! DEFINITION. JUMP JZ CALL RET (R190 to R196). A target is not checked at the transfer; the next
fetch checks it (R196, D36). -/

namespace Sys2Proof.Machine

/-- JUMP (R190). -/
def execJump (target : Half) (s : State) : Host.Outcome State Fault Refusal :=
  complete s (.ok ((s.fetched .packed).withIp (targetAddress target)))

/-- The Operation of JZ: the value is consumed whether or not the branch is taken (R191). -/
def popAndBranch (target : Half) (s : State) : Except FKind State :=
  match pop32 s with
  | .error k => .error k
  | .ok (v, s₁) => .ok (if isZero v then s₁.withIp (targetAddress target) else s₁)

/-- JZ (R191). -/
def execJz (target : Half) (s : State) : Host.Outcome State Fault Refusal :=
  complete s (popAndBranch target (s.fetched .packed))

/-- The Operation of CALL: push the return address, push the caller's `fp`, open the frame (R192). -/
def enterFrame (target : Half) (s : State) : Except FKind State :=
  match push32 (wordOfReg s.ip) s with
  | .error k => .error k
  | .ok s₁ =>
    match push32 (wordOfReg s₁.fp) s₁ with
    | .error k => .error k
    | .ok s₂ => .ok ((s₂.withFp s₂.sp).withIp (targetAddress target))

/-- CALL (R192). -/
def execCall (target : Half) (s : State) : Host.Outcome State Fault Refusal :=
  complete s (enterFrame target (s.fetched .packed))

/-- The Operation of RET: the return value, then the frame is discarded, the caller's `fp` and the
return address are popped, and the return value goes onto the caller's stack (R193). -/
def leaveFrame (s : State) : Except FKind State :=
  match pop32 s with
  | .error k => .error k
  | .ok (rv, s₁) =>
    match pop32 (s₁.withSp s₁.fp) with
    | .error k => .error k
    | .ok (savedFp, s₂) =>
      match pop32 (s₂.withFp (regOfWord savedFp)) with
      | .error k => .error k
      | .ok (savedIp, s₃) => push32 rv (s₃.withIp (regOfWord savedIp))

/-- RET (R193). -/
def execRet (s : State) : Host.Outcome State Fault Refusal :=
  complete s (leaveFrame (s.fetched .basic))

end Sys2Proof.Machine
end

