-- ==== Sys2Proof/Machine/PushPop.lean ====
section
/-! DEFINITION. PUSH and POP (R180 to R184), the only loads and stores. -/

namespace Sys2Proof.Machine

/-- PUSH (immediate) (R180). -/
def execPushImm (imm : W32) (s : State) : Host.Outcome State Fault Refusal :=
  complete s (push32 imm (s.fetched .imm))

/-- The Operation of PUSH (indirect): resolve, read, push (R181). -/
def loadAndPush (base : BaseReg) (disp : Int) (s : State) : Except FKind State :=
  match readWord (resolveEA base disp s) s with
  | .error k => .error k
  | .ok v => push32 v s

/-- PUSH (indirect), the load (R181). -/
def execPushInd (base : BaseReg) (disp : Int) (s : State) : Host.Outcome State Fault Refusal :=
  complete s (loadAndPush base disp (s.fetched .packed))

/-- The Operation of POP: the address is resolved before the pop, with the old `sp` (R182, D12). -/
def popAndStore (base : BaseReg) (disp : Int) (s : State) : Except FKind State :=
  match pop32 s with
  | .error k => .error k
  | .ok (v, s₁) => memWrite (resolveEA base disp s) v s₁

/-- POP, the store (R182). -/
def execPop (base : BaseReg) (disp : Int) (s : State) : Host.Outcome State Fault Refusal :=
  complete s (popAndStore base disp (s.fetched .packed))

end Sys2Proof.Machine
end

