-- ==== Sys2Proof/Machine/Shift.lean ====
section
/-! DEFINITION. SHL SHR ROL ROR (R170 to R174): one bit, logical, no amount operand. -/

namespace Sys2Proof.Machine

/-- SHL's function under the `OVERFLOW` parameter, which R4 extends to SHL: `v[30:0] ++ 0` (R170), or,
in D16's stricter model, a fault when twice the signed value is not in range. -/
def shiftLeft : Config.Overflow → W32 → Except FKind W32
  | .wrap, v => .ok (v.extractLsb' 0 (Config.wordBits - 1) ++ (0 : BitVec 1))
  | .fault, v => narrow .fault (2 * v.toInt)

/-- SHL's function (R170). -/
def shlOp (v : W32) : Except FKind W32 := shiftLeft Config.overflow v
/-- SHR's function: `0 ++ v[31:1]` (R171). -/
def shrOp (v : W32) : Except FKind W32 := .ok ((0 : BitVec 1) ++ v.extractLsb' 1 (Config.wordBits - 1))
/-- ROL's function: `v[30:0] ++ v[31]` (R172). -/
def rolOp (v : W32) : Except FKind W32 := .ok (v.extractLsb' 0 (Config.wordBits - 1) ++ v.extractLsb' (Config.wordBits - 1) 1)
/-- ROR's function: `v[0] ++ v[31:1]` (R173). -/
def rorOp (v : W32) : Except FKind W32 := .ok (v.extractLsb' 0 1 ++ v.extractLsb' 1 (Config.wordBits - 1))

/-- SHL (R170). -/
def execShl (s : State) : Host.Outcome State Fault Refusal := unaryInstr shlOp s
/-- SHR (R171). -/
def execShr (s : State) : Host.Outcome State Fault Refusal := unaryInstr shrOp s
/-- ROL (R172). -/
def execRol (s : State) : Host.Outcome State Fault Refusal := unaryInstr rolOp s
/-- ROR (R173). -/
def execRor (s : State) : Host.Outcome State Fault Refusal := unaryInstr rorOp s

end Sys2Proof.Machine
end

