-- ==== Sys2Proof/Machine/System.lean ====
section
/-! DEFINITION. NOP HALT INPUT PRINT (R200 to R203). -/

namespace Sys2Proof.Machine

/-- NOP: nothing but the advance of `ip` (R200, D21). -/
def execNop (s : State) : Host.Outcome State Fault Refusal :=
  complete s (.ok (s.fetched .basic))

/-- HALT (R201). -/
def execHalt (s : State) : Host.Outcome State Fault Refusal :=
  complete s (.ok ((s.fetched .basic).withStatus .halted))

/-- What `IN` still holds if the push of INPUT overflows after `v` was at its head: whether the value
was consumed is unspecified (R202, U11), a free choice (log 7). -/
def inputAfterFault (s : State) (rest : List W32) : List W32 :=
  if Config.inputTakenOnFault s.mem.draw then rest else s.input

/-- INPUT (R202). With no value on the channel the unit is stalled at the INPUT: no state changes, and
the step is taken when a value arrives (R128, log 8). -/
def execInput (s : State) : Host.Outcome State Fault Refusal :=
  match s.input with
  | [] => .next s
  | v :: rest =>
    match push32 v ((s.fetched .basic).withInput rest) with
    | .ok s' => .next s'
    | .error k => complete (s.withInput (inputAfterFault s rest)) (.error k)

/-- The Operation of PRINT (R203). -/
def popAndOutput (s : State) : Except FKind State :=
  match pop32 s with
  | .error k => .error k
  | .ok (v, s₁) => .ok (s₁.withOutput (s₁.output ++ [v]))

/-- PRINT (R203). -/
def execPrint (s : State) : Host.Outcome State Fault Refusal :=
  complete s (popAndOutput (s.fetched .basic))

end Sys2Proof.Machine
end

