-- ==== Sys2Proof/Machine/Dispatch.lean ====
section
/-! DEFINITION. The meaning of each instruction. `exec i s` is the whole of instruction `i` begun with
its opcode byte at `ip`, from the advance of `ip` past it to the last of its effects (R124, log 30). -/

namespace Sys2Proof.Machine

/-- One arm per row of `spec/opcode_table.json`. -/
def exec (i : Instr) (s : State) : Host.Outcome State Fault Refusal :=
  match i with
  | .nop => Sys2Proof.Machine.execNop s
  | .ret => Sys2Proof.Machine.execRet s
  | .halt => Sys2Proof.Machine.execHalt s
  | .add => Sys2Proof.Machine.execAdd s
  | .sub => Sys2Proof.Machine.execSub s
  | .mul => Sys2Proof.Machine.execMul s
  | .div => Sys2Proof.Machine.execDiv s
  | .mod => Sys2Proof.Machine.execMod s
  | .neg => Sys2Proof.Machine.execNeg s
  | .and => Sys2Proof.Machine.execAnd s
  | .or => Sys2Proof.Machine.execOr s
  | .not => Sys2Proof.Machine.execNot s
  | .eq => Sys2Proof.Machine.execEq s
  | .ne => Sys2Proof.Machine.execNe s
  | .lt => Sys2Proof.Machine.execLt s
  | .le => Sys2Proof.Machine.execLe s
  | .gt => Sys2Proof.Machine.execGt s
  | .ge => Sys2Proof.Machine.execGe s
  | .input => Sys2Proof.Machine.execInput s
  | .print => Sys2Proof.Machine.execPrint s
  | .shl => Sys2Proof.Machine.execShl s
  | .shr => Sys2Proof.Machine.execShr s
  | .rol => Sys2Proof.Machine.execRol s
  | .ror => Sys2Proof.Machine.execRor s
  | .pushImm imm => Sys2Proof.Machine.execPushImm imm s
  | .pushInd base disp => Sys2Proof.Machine.execPushInd base disp s
  | .pop base disp => Sys2Proof.Machine.execPop base disp s
  | .call target => Sys2Proof.Machine.execCall target s
  | .jump target => Sys2Proof.Machine.execJump target s
  | .jz target => Sys2Proof.Machine.execJz target s

end Sys2Proof.Machine
end

