-- ==== Sys2Proof/Machine/Step.lean ====
section
/-! DEFINITION. One step of the unit (R120), and placing an instruction where the next step fetches. -/

namespace Sys2Proof.Machine

/-- One step: fetch and decode at `ip`, then the instruction (R120). A fetch or decode fault is
recorded with `pc0`, the `ip` the step began with (R121 to R123, R218). In `IDLE`, `HALTED` and
`FAULTED` the unit has no transition (D42): the outcome says which. -/
def step (s : State) : Host.Outcome State Fault Refusal :=
  match s.status with
  | .idle => .fault .idle
  | .halted => .fault .halted
  | .faulted => .fault .faulted
  | .running =>
    match fetch s with
    | .error k => complete s (.error k)
    | .ok i => exec i s

/-- The length the mode tag of the first byte gives (R94); 1 where it gives none. -/
def fetchLength : List Byte → Nat
  | [] => 1
  | b :: _ =>
    match formatOfMode (modeField b) with
    | some f => f.length
    | none => 1

/-- `s` with the instruction of a table word stored where the next step fetches. A running unit whose
`ip` leaves room for the instruction gets its bytes at `ip`; for any other state this stands for the
host's Load of those bytes (R240, log 28). -/
def State.withFetchWord (s : State) (nbits w : Nat) : State :=
  if s.status = .running ∧ inMemory s.ip.toInt (fetchLength (tableBytes nbits w)) then
    s.withMem (Memory.write s.mem s.ip.toNat
      ((tableBytes nbits w).take (Config.memSize - s.ip.toNat)))
  else s.load (tableBytes nbits w)

end Sys2Proof.Machine
end

