-- ==== Sys2Proof/Machine/Assembler.lean ====
section
/-! DEFINITION. The assembler, as far as the spec has it in scope (R2): from source text to the byte
image, or the first error (R100 to R116). Its internals are software (R3); what stands here is a plain
reading of the rules that fixes their observable result. -/

namespace Sys2Proof.Assembler

/-! ### Tokens (R100, R101) -/

/-- The name of a label. -/
abbrev Name := List Char

/-- The token kinds of R101. -/
inductive Token where
  | ident (name : Name)
  | mnemonic (m : Mnemonic)
  | reg (r : BaseReg)
  | number (n : Nat)
  | colon | bracketOpen | bracketClose | plus | minus | newline | endOfInput
  | unrecognized (c : Char)
  deriving DecidableEq, Repr

/-- The spelling of a mnemonic: the capitals, matched exactly (R113). -/
def spelling : Mnemonic → Name
  | .nop => ['N', 'O', 'P'] | .ret => ['R', 'E', 'T'] | .halt => ['H', 'A', 'L', 'T']
  | .add => ['A', 'D', 'D'] | .sub => ['S', 'U', 'B'] | .mul => ['M', 'U', 'L']
  | .div => ['D', 'I', 'V'] | .mod => ['M', 'O', 'D'] | .neg => ['N', 'E', 'G']
  | .and => ['A', 'N', 'D'] | .or => ['O', 'R'] | .not => ['N', 'O', 'T']
  | .eq => ['E', 'Q'] | .ne => ['N', 'E'] | .lt => ['L', 'T'] | .le => ['L', 'E']
  | .gt => ['G', 'T'] | .ge => ['G', 'E']
  | .input => ['I', 'N', 'P', 'U', 'T'] | .print => ['P', 'R', 'I', 'N', 'T']
  | .shl => ['S', 'H', 'L'] | .shr => ['S', 'H', 'R'] | .rol => ['R', 'O', 'L']
  | .ror => ['R', 'O', 'R']
  | .push => ['P', 'U', 'S', 'H'] | .pop => ['P', 'O', 'P'] | .call => ['C', 'A', 'L', 'L']
  | .jump => ['J', 'U', 'M', 'P'] | .jz => ['J', 'Z']

/-- The spelling of a register name, in lower case (R113, D31). -/
def regSpelling : BaseReg → Name
  | .sp => ['s', 'p']
  | .fp => ['f', 'p']
  | .ip => ['i', 'p']

/-- Classifying a run of letters and digits by table lookup (R100). -/
def classify (w : Name) : Token :=
  match Mnemonic.all.find? (fun m => spelling m == w) with
  | some m => .mnemonic m
  | none =>
    match [BaseReg.sp, BaseReg.fp, BaseReg.ip].find? (fun r => regSpelling r == w) with
    | some r => .reg r
    | none => .ident w

/-- The decimal value of a digit. -/
def digitValue (c : Char) : Nat := c.toNat - '0'.toNat

/-- Where the tokenizer stands: between tokens, in a comment, in a run of letters and digits (kept
backwards), or in a run of digits. -/
inductive Scan where
  | between
  | comment
  | word (backwards : Name)
  | number (value : Nat)
  deriving DecidableEq, Repr

/-- The token a run ends with. -/
def Scan.token : Scan → List Token
  | .between => []
  | .comment => []
  | .word w => [classify w.reverse]
  | .number n => [.number n]

/-- A character met between tokens: the tokens it is, and where the tokenizer stands after it (R100). -/
def scanStart (c : Char) : List Token × Scan :=
  if c = ' ' ∨ c = '\t' ∨ c = '\r' then ([], .between)
  else if c = '\n' then ([.newline], .between)
  else if c = ';' then ([], .comment)
  else if c = ':' then ([.colon], .between)
  else if c = '[' then ([.bracketOpen], .between)
  else if c = ']' then ([.bracketClose], .between)
  else if c = '+' then ([.plus], .between)
  else if c = '-' then ([.minus], .between)
  else if c.isAlpha then ([], .word [c])
  else if c.isDigit then ([], .number (digitValue c))
  else ([.unrecognized c], .between)

/-- One character: the tokens it completes or is, and where the tokenizer stands after it. Runs are
the longest possible (R100). -/
def scanChar : Scan → Char → List Token × Scan
  | .between, c => scanStart c
  | .comment, c => if c = '\n' then ([.newline], .between) else ([], .comment)
  | .word w, c =>
    if c.isAlphanum then ([], .word (c :: w))
    else ((Scan.word w).token ++ (scanStart c).1, (scanStart c).2)
  | .number n, c =>
    if c.isDigit then ([], .number (10 * n + digitValue c))
    else ((Scan.number n).token ++ (scanStart c).1, (scanStart c).2)

/-- The tokens of a source text from a point of the scan on, with the end-of-input token last. -/
def tokensFrom : Scan → List Char → List Token
  | sc, [] => sc.token ++ [.endOfInput]
  | sc, c :: cs => (scanChar sc c).1 ++ tokensFrom (scanChar sc c).2 cs

/-- The tokens of a source text (R100). -/
def tokenize (source : List Char) : List Token := tokensFrom .between source

/-! ### Parsing (R102 to R106) -/

/-- What ends an assembly (R111): the first error. `line` counts from 1. -/
inductive Error where
  /-- a character the tokenizer does not recognize, rejected by the parser -/
  | lexical (line : Nat) (c : Char)
  /-- an unexpected token or a missing operand -/
  | unexpected (line : Nat)
  /-- a PUSH literal outside `INT_MIN` to `INT_MAX` (R104, D32) -/
  | literalRange (line : Nat)
  /-- a displacement outside -8192 to 8191 (R105, D32) -/
  | displacementRange (line : Nat)
  /-- a label that is not defined (R109) -/
  | unresolved (label : Name)
  /-- a label offset that does not fit 16 bits (R106, R253) -/
  | targetRange (label : Name)
  deriving DecidableEq, Repr

/-- The instructions whose operand is a label (R106). -/
inductive Transfer where
  | call | jump | jz
  deriving DecidableEq, Repr

/-- The instruction a transfer becomes once its label is resolved. -/
def Transfer.instr : Transfer → Half → Instr
  | .call => .call
  | .jump => .jump
  | .jz => .jz

/-- A parsed instruction: complete, or waiting for its label. -/
inductive Stmt where
  | plain (i : Instr)
  | labelled (t : Transfer) (label : Name)
  deriving DecidableEq, Repr

/-- The encoded size of an instruction; a label operand takes its field, resolved or not (R108). -/
def Stmt.size : Stmt → Nat
  | .plain i => i.length
  | .labelled _ _ => Format.packed.length

/-- A source line: at most one label and at most one instruction (R102). -/
structure Line where
  label : Option Name
  stmt : Option Stmt
  deriving DecidableEq, Repr

/-- The error at the first token that does not fit the grammar; the line has ended if there is none. -/
def errorAt (line : Nat) : List Token → Error
  | .unrecognized c :: _ => .lexical line c
  | _ => .unexpected line

/-- Nothing may follow on the line (R102, R103). -/
def endOfLine (line : Nat) (st : Stmt) : List Token → Except Error (Option Stmt)
  | [] => .ok (some st)
  | ts => .error (errorAt line ts)

/-- A PUSH literal (R104). -/
def literal (line : Nat) (n : Int) (rest : List Token) : Except Error (Option Stmt) :=
  if intMin ≤ n ∧ n ≤ intMax then endOfLine line (.plain (.pushImm (wrap32 n))) rest
  else .error (.literalRange line)

/-- The end of an indirect operand, after its number: the closing bracket (R105). -/
def closeIndirect (line : Nat) (make : BaseReg → Int → Instr) (r : BaseReg) (disp : Int) :
    List Token → Except Error (Option Stmt)
  | .bracketClose :: rest =>
    if dispInRange disp then endOfLine line (.plain (make r disp)) rest
    else .error (.displacementRange line)
  | ts => .error (errorAt line ts)

/-- The signed displacement of an indirect operand; the sign is mandatory (R105). -/
def signedDisp (line : Nat) (make : BaseReg → Int → Instr) (r : BaseReg) :
    List Token → Except Error (Option Stmt)
  | .plus :: .number n :: rest => closeIndirect line make r n rest
  | .minus :: .number n :: rest => closeIndirect line make r (-n) rest
  | .plus :: ts => .error (errorAt line ts)
  | .minus :: ts => .error (errorAt line ts)
  | ts => .error (errorAt line ts)

/-- An indirect operand, `'[' REGISTER ('+'|'-') NUMBER ']'`, after its opening bracket (R105). -/
def indirect (line : Nat) (make : BaseReg → Int → Instr) :
    List Token → Except Error (Option Stmt)
  | .reg r :: rest => signedDisp line make r rest
  | ts => .error (errorAt line ts)

/-- PUSH's operand: the first token chooses the form (R104). -/
def pushOperand (line : Nat) : List Token → Except Error (Option Stmt)
  | .bracketOpen :: rest => indirect line .pushInd rest
  | .number n :: rest => literal line n rest
  | .plus :: .number n :: rest => literal line n rest
  | .minus :: .number n :: rest => literal line (-n) rest
  | .plus :: ts => .error (errorAt line ts)
  | .minus :: ts => .error (errorAt line ts)
  | ts => .error (errorAt line ts)

/-- POP's operand: indirect only (R105). -/
def popOperand (line : Nat) : List Token → Except Error (Option Stmt)
  | .bracketOpen :: rest => indirect line .pop rest
  | ts => .error (errorAt line ts)

/-- The operand of CALL, JUMP and JZ: one identifier naming a label (R106). -/
def labelOperand (line : Nat) (t : Transfer) : List Token → Except Error (Option Stmt)
  | .ident l :: rest => endOfLine line (.labelled t l) rest
  | ts => .error (errorAt line ts)

/-- The instruction of a line, if any: a mnemonic and its operand (R102 to R106). -/
def instruction (line : Nat) : List Token → Except Error (Option Stmt)
  | [] => .ok none
  | .mnemonic m :: rest =>
    match shapeOf m .basic with
    | some (.plain i) => endOfLine line (.plain i) rest
    | _ =>
      match m with
      | .push => pushOperand line rest
      | .pop => popOperand line rest
      | .call => labelOperand line .call rest
      | .jump => labelOperand line .jump rest
      | .jz => labelOperand line .jz rest
      | _ => .error (.unexpected line)
  | ts => .error (errorAt line ts)

/-- One line: `(label)? (instruction)?` (R102). -/
def parseLine (line : Nat) : List Token → Except Error Line
  | .ident l :: .colon :: rest =>
    match instruction line rest with
    | .error e => .error e
    | .ok st => .ok { label := some l, stmt := st }
  | .ident _ :: ts => .error (errorAt line ts)
  | ts =>
    match instruction line ts with
    | .error e => .error e
    | .ok st => .ok { label := none, stmt := st }

/-- The tokens line by line; the end of input also ends a line (R102, R115, D33). `backwards` is the
line so far. -/
def splitLines (backwards : List Token) : List Token → List (List Token)
  | [] => [backwards.reverse]
  | .newline :: ts => backwards.reverse :: splitLines [] ts
  | .endOfInput :: _ => [backwards.reverse]
  | t :: ts => splitLines (t :: backwards) ts

/-- The lines of a source text, up to the first error (R111). -/
def parseLines (line : Nat) : List (List Token) → Except Error (List Line)
  | [] => .ok []
  | ts :: rest =>
    match parseLine line ts with
    | .error e => .error e
    | .ok l =>
      match parseLines (line + 1) rest with
      | .error e => .error e
      | .ok ls => .ok (l :: ls)

/-- The parsed source text. -/
def parse (source : List Char) : Except Error (List Line) :=
  parseLines 1 (splitLines [] (tokenize source))

/-! ### Labels and the image (R107 to R110) -/

/-- The encoded size of a line. -/
def Line.size (l : Line) : Nat :=
  match l.stmt with
  | some st => st.size
  | none => 0

/-- The label bindings of a program whose first line stands at `offset`: each name is bound to the
running total of the sizes before it, in source order (R107, R108). -/
def bindings (offset : Nat) : List Line → List (Name × Nat)
  | [] => []
  | l :: ls =>
    match l.label with
    | some n => (n, offset) :: bindings (offset + l.size) ls
    | none => bindings (offset + l.size) ls

/-- The offset of a label: its first binding wins (R107). -/
def offsetOf (name : Name) (bs : List (Name × Nat)) : Option Nat :=
  (bs.find? (fun b => b.1 == name)).map Prod.snd

/-- An instruction with its label resolved (R109). -/
def resolve (bs : List (Name × Nat)) : Stmt → Except Error Instr
  | .plain i => .ok i
  | .labelled t l =>
    match offsetOf l bs with
    | none => .error (.unresolved l)
    | some a => if a < 2 ^ Config.operandBits then .ok (t.instr (BitVec.ofNat Config.operandBits a)) else .error (.targetRange l)

/-- The instructions of a program in emission order, resolved after the whole source has been read,
up to the first error (R109, R111). -/
def link (bs : List (Name × Nat)) : List Line → Except Error (List Instr)
  | [] => .ok []
  | l :: ls =>
    match l.stmt with
    | none => link bs ls
    | some st =>
      match resolve bs st with
      | .error e => .error e
      | .ok i =>
        match link bs ls with
        | .error e => .error e
        | .ok is => .ok (i :: is)

/-- The instructions of a source text, or the first error. -/
def assembleInstrs (source : List Char) : Except Error (List Instr) :=
  match parse source with
  | .error e => .error e
  | .ok ls => link (bindings 0 ls) ls

/-- The image: every instruction's encoded bytes in emission order, with no header (R110). -/
def assemble (source : List Char) : Except Error (List Byte) :=
  match assembleInstrs source with
  | .error e => .error e
  | .ok is => .ok (is.flatMap encode)

end Sys2Proof.Assembler
end

