-- ==== Sys2Proof/Machine/Observer.lean ====
section
/-! DEFINITION. The unit's side of the observer interface (R35, R129, R230): what the hooks are handed
in a step. The observer is outside the unit and changes no state, so it is a function beside `step`. -/

namespace Sys2Proof.Machine

/-- The points at which the observer is invoked (R129). -/
inductive HookPoint where
  | beforeFetch | afterExecute | onHalt
  deriving DecidableEq, Repr

/-- What one invocation hands the observer: the current address, the decoded mnemonic and the register
snapshot `ip`, `sp`, `fp` (R230). -/
structure HookCall where
  point : HookPoint
  address : Reg
  mnemonic : Mnemonic
  ip : Reg
  sp : Reg
  fp : Reg
  deriving DecidableEq, Repr

/-- The invocation at a point of the step of `i` begun at `pc0`, with the registers of `s`. -/
def hookCall (point : HookPoint) (pc0 : Reg) (i : Instr) (s : State) : HookCall :=
  { point := point, address := pc0, mnemonic := i.mnemonic, ip := s.ip, sp := s.sp, fp := s.fp }

/-- INPUT waiting for a value: the step has not been taken yet (R120, R128). -/
def stalled (i : Instr) (s : State) : Bool := i == .input && s.input.isEmpty

/-- The invocations of the step from `s`: before the fetch, and after the execute part or on halt
(R120, R129). Nothing where no step is completed: the unit is not `RUNNING`, it is stalled at an
INPUT, or the step faults, of which the spec does not say what the observer is given (U12, log 27). -/
def observe (s : State) : Option (List HookCall) :=
  match s.status, fetch s with
  | .running, .ok i =>
    if stalled i s then none
    else
      match exec i s with
      | .next t =>
        match t.status with
        | .running => some [hookCall .beforeFetch s.ip i s, hookCall .afterExecute s.ip i t]
        | .halted => some [hookCall .beforeFetch s.ip i s, hookCall .onHalt s.ip i t]
        | .faulted => none
        | .idle => none
      | .fault _ => none
      | .refused _ => none
  | _, _ => none

end Sys2Proof.Machine
end

