-- ==== Sys2Proof/Machine/Run.lean ====
section
/-! DEFINITION. Runs and the status interface (R34, R125, R130). -/

namespace Sys2Proof.Machine

/-- The run of R125 under fuel: step after step until the unit is no longer `RUNNING`. A unit that
never stops has no last state; the fuel bounds how many steps are looked at. -/
def runFor : Nat → State → State
  | 0, s => s
  | n + 1, s =>
    match step s with
    | .next s' => runFor n s'
    | .fault _ => s
    | .refused _ => s

/-- The fault record, which means something only while `FAULTED` (R27, R34). -/
def State.faultRecord (s : State) : Option (FKind × Reg) :=
  match s.status with
  | .faulted => some (s.fkind, s.faddr)
  | .idle | .running | .halted => none

/-- The result of a completed run (R130). -/
structure RunResult where
  output : List W32
  ip : Reg
  sp : Reg
  fp : Reg
  mem : Memory
  deriving DecidableEq, Repr

/-- A run is complete only when the unit is `HALTED` (R130). -/
def State.result (s : State) : Option RunResult :=
  match s.status with
  | .halted => some { output := s.output, ip := s.ip, sp := s.sp, fp := s.fp, mem := s.mem }
  | .idle | .running | .faulted => none

end Sys2Proof.Machine
end

