-- ==== Sys2Proof/Safety.lean ====
section
/-! DEFINITION. The terms claims are stated in: what a fault leaves, what an access leaves alone, the
invariant of a run, and what a rule of the binary or unary shape says. -/

namespace Sys2Proof.Safety

open Sys2Proof.Machine

/-- The stack lies inside memory and `sp` is not below the stack base. Every instruction that
completes keeps it, although a RET reads an arbitrary `fp` on the way (R193). -/
abbrev StackInBounds (s : State) : Prop :=
  0 ≤ s.sb.toInt ∧ s.sb.toInt ≤ s.sp.toInt ∧ s.sp.toInt ≤ Config.memSize

/-- The invariant of a run: memory is in canonical form; while the unit runs, and after HALT, the
stack is in bounds; a faulted unit has a fault recorded. -/
abbrev Inv (s : State) : Prop :=
  Memory.Wf s.mem ∧ ((s.status = .running ∨ s.status = .halted) → StackInBounds s) ∧
    (s.status = .faulted → s.fkind ≠ .none)

/-- A state that does not fault. -/
abbrev Safe (s : State) : Prop := s.status ≠ .faulted

/-- The instruction begun in `s` raised `k`: the unit goes to `FAULTED` with `k` and the instruction's
own address recorded (R218), and what had been output stays output (R219). Nothing is said of the
rest, which the spec leaves unspecified. -/
def Raises (k : FKind) (s : State) (o : Host.Outcome State Fault Refusal) : Prop :=
  ∃ t, o = .next t ∧ t.status = .faulted ∧ t.fkind = k ∧ t.faddr = s.ip ∧ t.output = s.output

/-- The transfer completes at `target` with the unit still running, and the step after it raises
`FetchBounds` with that target recorded (R196). -/
def FaultsAtNextFetch (target : Reg) (o : Host.Outcome State Fault Refusal) : Prop :=
  ∃ t, o = .next t ∧ t.status = .running ∧ t.ip = target ∧ Raises .fetchBounds t (step t)

/-- Every byte outside the `n` from address `a` reads as before. -/
def SameBytesOutside (s t : State) (a n : Nat) : Prop :=
  ∀ b, b < a ∨ a + n ≤ b → t.byte b = s.byte b

/-- What a two-operand instruction without faults of its own says (R140): with two values on the stack
it completes; the result stands in the left operand's slot, `sp` is one slot lower, `ip` one byte
further, and nothing else has changed. With fewer it raises `StackUnderflow`. -/
def BinaryRule (i : Instr) (op : W32 → W32 → W32) : Prop :=
  ∀ s, StackInBounds s →
    (s.sb.toInt + 8 ≤ s.sp.toInt →
      ∃ t, exec i s = .next t ∧
        t = { s with ip := s.ip + 1, sp := s.sp - 4, mem := t.mem } ∧
        t.word (s.sp.toNat - 8) = op (s.word (s.sp.toNat - 8)) (s.word (s.sp.toNat - 4)) ∧
        SameBytesOutside s t (s.sp.toNat - 8) 4) ∧
    (s.sp.toInt < s.sb.toInt + 8 → Raises .stackUnderflow s (exec i s))

/-- What a one-operand instruction says (R150): with a value on the stack it completes; the result
replaces it, `ip` is one byte further, and nothing else has changed, `sp` included. On an empty stack
it raises `StackUnderflow`. -/
def UnaryRule (i : Instr) (op : W32 → W32) : Prop :=
  ∀ s, StackInBounds s →
    (s.sb.toInt + 4 ≤ s.sp.toInt →
      ∃ t, exec i s = .next t ∧
        t = { s with ip := s.ip + 1, mem := t.mem } ∧
        t.word (s.sp.toNat - 4) = op (s.word (s.sp.toNat - 4)) ∧
        SameBytesOutside s t (s.sp.toNat - 4) 4) ∧
    (s.sp.toInt < s.sb.toInt + 4 → Raises .stackUnderflow s (exec i s))

/-- DIV and MOD (R144, R145): as `BinaryRule`, and `ArithmeticFault`, with two values on the stack, for
a zero divisor and for `INT_MIN` by -1. -/
def DivisionRule (i : Instr) (op : W32 → W32 → W32) : Prop :=
  ∀ s, StackInBounds s →
    (s.sb.toInt + 8 ≤ s.sp.toInt →
      let l := s.word (s.sp.toNat - 8)
      let r := s.word (s.sp.toNat - 4)
      if r.toInt = 0 ∨ (l.toInt = -2147483648 ∧ r.toInt = -1) then
        Raises .arithmeticFault s (exec i s)
      else
        ∃ t, exec i s = .next t ∧
          t = { s with ip := s.ip + 1, sp := s.sp - 4, mem := t.mem } ∧
          t.word (s.sp.toNat - 8) = op l r ∧
          SameBytesOutside s t (s.sp.toNat - 8) 4) ∧
    (s.sp.toInt < s.sb.toInt + 8 → Raises .stackUnderflow s (exec i s))

/-- An instruction whose first byte is `first` and whose length is `n`, of which the operand field
does not lie wholly inside memory, raises `FetchBounds` (R123). -/
def OperandFetchRule (first : Byte) (n : Nat) : Prop :=
  ∀ s : State, s.status = .running → 0 ≤ s.ip.toInt → s.ip.toInt < Config.memSize →
    s.byte s.ip.toNat = first → (Config.memSize : Int) < s.ip.toInt + n →
    Raises .fetchBounds s (step s)

/-- An instruction whose first byte is `first` and whose operand has register tag 3 raises
`DecodeFault`, with the stack in any condition (R93, R123). -/
def ReservedTagRule (first : Byte) : Prop :=
  ∀ s : State, s.status = .running → inMemory s.ip.toInt 3 → s.byte s.ip.toNat = first →
    (s.byte (s.ip.toNat + 2)).extractLsb' 6 2 = 3 → Raises .decodeFault s (step s)

/-- Which faults the Operation of an instruction can raise (R220). -/
def mayRaise : Instr → List FKind
  | .nop => [] | .halt => [] | .jump _ => []
  | .add => [.stackUnderflow] | .sub => [.stackUnderflow] | .mul => [.stackUnderflow]
  | .and => [.stackUnderflow] | .or => [.stackUnderflow]
  | .eq => [.stackUnderflow] | .ne => [.stackUnderflow] | .lt => [.stackUnderflow]
  | .le => [.stackUnderflow] | .gt => [.stackUnderflow] | .ge => [.stackUnderflow]
  | .div => [.stackUnderflow, .arithmeticFault] | .mod => [.stackUnderflow, .arithmeticFault]
  | .neg => [.stackUnderflow] | .not => [.stackUnderflow]
  | .shl => [.stackUnderflow] | .shr => [.stackUnderflow]
  | .rol => [.stackUnderflow] | .ror => [.stackUnderflow]
  | .pushImm _ => [.stackOverflow]
  | .pushInd _ _ => [.stackOverflow, .memoryBounds]
  | .pop _ _ => [.stackUnderflow, .memoryBounds]
  | .jz _ => [.stackUnderflow] | .print => [.stackUnderflow]
  | .call _ => [.stackOverflow] | .input => [.stackOverflow]
  | .ret => [.stackUnderflow, .memoryBounds]

end Sys2Proof.Safety
end

