-- ==== Sys2Proof/Certificates/Slice0/Obligations.lean ====
section
/-! DEFINITION. The statements for the provers. A docstring names the rules of `spec/` a statement
formalises; where a clause rests on a decision of the spec (D<n>) or on a choice of this model (log n),
it says so. In every statement the first bytes are the numbers of R89 (the spec's decision D1, log 13),
and a stack slot is the four bytes of R60 and R61 (D9, log 16). -/

open Sys2Proof Sys2Proof.Machine Sys2Proof.Safety

/-! ### Arithmetic and bitwise instructions -/

/-- R141, R142, R143: ADD, SUB, MUL as whole rules: the byte, the result as a 32-bit adder and
multiplier give it (wrapping is the spec's decision D16), left minus right, `StackUnderflow`. -/
def Obligations.AddSubMulWrapModulo32Bits : Prop :=
  encode .add = [0x03] ∧ BinaryRule .add (fun l r => l + r) ∧
  encode .sub = [0x04] ∧ BinaryRule .sub (fun l r => l - r) ∧
  encode .mul = [0x05] ∧ BinaryRule .mul (fun l r => l * r)

/-- R146, R147: AND and OR, bit by bit (the spec's decision D20). -/
def Obligations.AndOrWorkBitByBit : Prop :=
  encode .and = [0x09] ∧ BinaryRule .and (fun l r => l &&& r) ∧
  encode .or = [0x0A] ∧ BinaryRule .or (fun l r => l ||| r)

/-- R144: DIV divides the earlier-pushed value by the top of stack, rounding toward zero, and raises
`ArithmeticFault` for a zero divisor and for `INT_MIN` by -1 (the spec's decisions D17, D18). -/
def Obligations.DivTruncatesTowardZero : Prop :=
  encode .div = [0x06] ∧ DivisionRule .div (fun l r => wrap32 (l.toInt.tdiv r.toInt))

/-- R145: MOD leaves the remainder that goes with DIV's quotient, and faults as DIV does (the spec's
decisions D17, D18). -/
def Obligations.ModLeavesTruncatedRemainder : Prop :=
  encode .mod = [0x07] ∧
    DivisionRule .mod (fun l r => wrap32 (l.toInt - r.toInt * l.toInt.tdiv r.toInt))

/-- R151: where neither faults, DIV and MOD fit together, the remainder is smaller than the divisor,
and it is zero or has the sign of the dividend (the spec's decisions D17, D18). -/
def Obligations.QuotientAndRemainderFitTogether : Prop :=
  ∀ l r : W32, r.toInt ≠ 0 → ¬ (l.toInt = -2147483648 ∧ r.toInt = -1) →
    ∃ q m : W32, divOp l r = .ok q ∧ modOp l r = .ok m ∧
      l.toInt = q.toInt * r.toInt + m.toInt ∧ m.toInt.natAbs < r.toInt.natAbs ∧
      (m.toInt = 0 ∨ (0 < m.toInt ∧ 0 < l.toInt) ∨ (m.toInt < 0 ∧ l.toInt < 0))

/-- R148: NEG is two's complement negation, so `INT_MIN` stays `INT_MIN` (the spec's decision D16). -/
def Obligations.NegIsTwosComplement : Prop :=
  encode .neg = [0x08] ∧ UnaryRule .neg (fun v => -v)

/-- R149: NOT complements every bit, which is `wrap32(-s(v) - 1)`. -/
def Obligations.NotComplementsEveryBit : Prop :=
  encode .not = [0x0B] ∧ UnaryRule .not (fun v => ~~~v) ∧
    UnaryRule .not (fun v => wrap32 (-v.toInt - 1))

/-! ### Comparisons -/

/-- R161, R162: EQ and NE compare the 32-bit patterns. -/
def Obligations.EqNeComparePatterns : Prop :=
  encode .eq = [0x0C] ∧ BinaryRule .eq (fun l r => if l = r then 1 else 0) ∧
  encode .ne = [0x0D] ∧ BinaryRule .ne (fun l r => if l = r then 0 else 1)

/-- R163 to R166: LT, LE, GT, GE compare left with right, exactly. That they compare the signed readings
is the spec's decision D19 (marked in R160; log 22). -/
def Obligations.OrderedComparisonsAreSigned : Prop :=
  encode .lt = [0x0E] ∧ BinaryRule .lt (fun l r => if l.toInt < r.toInt then 1 else 0) ∧
  encode .le = [0x0F] ∧ BinaryRule .le (fun l r => if l.toInt ≤ r.toInt then 1 else 0) ∧
  encode .gt = [0x10] ∧ BinaryRule .gt (fun l r => if r.toInt < l.toInt then 1 else 0) ∧
  encode .ge = [0x11] ∧ BinaryRule .ge (fun l r => if r.toInt ≤ l.toInt then 1 else 0)

/-! ### Shifts and rotates -/

/-- R170, R171: SHL and SHR move every bit one place, logically; SHL is `wrap32(2 * u(v))` and SHR is
`floor(u(v) / 2)`. -/
def Obligations.ShiftsAreLogicalByOneBit : Prop :=
  encode .shl = [0x14] ∧ UnaryRule .shl (fun v => v <<< 1) ∧
  UnaryRule .shl (fun v => BitVec.ofNat 32 (2 * v.toNat)) ∧
  encode .shr = [0x15] ∧ UnaryRule .shr (fun v => v >>> 1) ∧
  UnaryRule .shr (fun v => BitVec.ofNat 32 (v.toNat / 2))

/-- R172, R173: ROL and ROR rotate all 32 bits by one place, and each undoes the other. -/
def Obligations.RotatesAreCircularByOneBit : Prop :=
  encode .rol = [0x16] ∧ UnaryRule .rol (fun v => v.rotateLeft 1) ∧
  encode .ror = [0x17] ∧ UnaryRule .ror (fun v => v.rotateRight 1) ∧
  ∀ v : W32, ∃ l r, rolOp v = .ok l ∧ rorOp l = .ok v ∧ rorOp v = .ok r ∧ rolOp r = .ok v

/-- R172, R173, S9: ROL followed by ROR leaves the whole machine as it was, byte for byte, but for two
steps of `ip`. -/
def Obligations.RolThenRorRestoresTheState : Prop :=
  ∀ s, StackInBounds s → s.sb.toInt + 4 ≤ s.sp.toInt →
    ∃ t u, exec .rol s = .next t ∧ exec .ror t = .next u ∧
      u = { s with ip := s.ip + 2, mem := u.mem } ∧ ∀ a, u.byte a = s.byte a

/-! ### PUSH and POP -/

/-- R180: PUSH (immediate) as a whole rule, its three assembler spellings included (the number 0x58 is
the spec's decision D1). -/
def Obligations.PushImmediatePushesItsLiteral : Prop :=
  OperandFetchRule 0x58 5 ∧
  Assembler.assemble ['P', 'U', 'S', 'H', ' ', '7'] = .ok [0x58, 0x07, 0x00, 0x00, 0x00] ∧
  Assembler.assemble ['P', 'U', 'S', 'H', ' ', '-', '1'] = .ok [0x58, 0xFF, 0xFF, 0xFF, 0xFF] ∧
  Assembler.assemble ['P', 'U', 'S', 'H', ' ', '+', '5'] = .ok [0x58, 0x05, 0x00, 0x00, 0x00] ∧
  ∀ (imm : W32) (s : State),
    encode (.pushImm imm) = [0x58, imm.extractLsb' 0 8, imm.extractLsb' 8 8,
      imm.extractLsb' 16 8, imm.extractLsb' 24 8] ∧
    (0 ≤ s.sp.toInt ∧ s.sp.toInt + 4 ≤ Config.memSize →
      ∃ t, exec (.pushImm imm) s = .next t ∧
        t = { s with ip := s.ip + 5, sp := s.sp + 4, mem := t.mem } ∧
        t.word s.sp.toNat = imm ∧ SameBytesOutside s t s.sp.toNat 4) ∧
    (¬ (0 ≤ s.sp.toInt ∧ s.sp.toInt + 4 ≤ Config.memSize) →
      Raises .stackOverflow s (exec (.pushImm imm) s))

/-- R126, R183: the effective address of each base, with `sp` and `fp` as the instruction finds them
and `ip` at the next instruction (the spec's decisions D11, D12). -/
def Obligations.EffectiveAddressOfEachBase : Prop :=
  ∀ (s : State) (disp : Int),
    resolveEA .sp disp (s.fetched .packed) = s.sp.toInt + disp ∧
    resolveEA .fp disp (s.fetched .packed) = s.fp.toInt + disp ∧
    (inMemory s.ip.toInt 3 →
      resolveEA .ip disp (s.fetched .packed) = s.ip.toInt + 3 + disp)

/-- R181: PUSH (indirect) as a whole rule; the load comes before the push. The encoding is R86's and
R105's, whose layout and tag values are the spec's decisions D5 and D6 (log 13), as is the fault of
tag 3 (D6, log 14). -/
def Obligations.PushIndirectLoadsAWord : Prop :=
  OperandFetchRule 0x98 3 ∧ ReservedTagRule 0x98 ∧
  Assembler.assemble ['P', 'U', 'S', 'H', ' ', '[', 'f', 'p', '+', '0', ']'] = .ok [0x98, 0x00, 0x40] ∧
  Assembler.assemble ['P', 'U', 'S', 'H', ' ', '[', 'f', 'p', '-', '1', '2', ']']
    = .ok [0x98, 0xF4, 0x7F] ∧
  Assembler.assemble ['P', 'U', 'S', 'H', ' ', '[', 's', 'p', '-', '4', ']'] = .ok [0x98, 0xFC, 0x3F] ∧
  Assembler.assemble ['P', 'U', 'S', 'H', ' ', '[', 'i', 'p', '+', '1', ']'] = .ok [0x98, 0x01, 0x80] ∧
  ∀ (base : BaseReg) (disp : Int) (s : State),
    (-8192 ≤ disp → disp ≤ 8191 →
      ∃ w : Half, w.toNat = 16384 * (Config.tag base).toNat + (disp % 16384).toNat ∧
        encode (.pushInd base disp) = [0x98, w.extractLsb' 0 8, w.extractLsb' 8 8]) ∧
    (let ea := resolveEA base disp (s.fetched .packed)
     if inMemory ea 4 then
       if inMemory s.sp.toInt 4 then
         ∃ t, exec (.pushInd base disp) s = .next t ∧
           t = { s with ip := s.ip + 3, sp := s.sp + 4, mem := t.mem } ∧
           t.word s.sp.toNat = s.word ea.toNat ∧ SameBytesOutside s t s.sp.toNat 4
       else Raises .stackOverflow s (exec (.pushInd base disp) s)
     else Raises .memoryBounds s (exec (.pushInd base disp) s))

/-- R182: POP as a whole rule. The address is resolved with the old `sp` (the spec's decision D12), the
underflow comes before the bounds fault. -/
def Obligations.PopStoresTheTopOfStack : Prop :=
  OperandFetchRule 0x99 3 ∧ ReservedTagRule 0x99 ∧
  Assembler.assemble ['P', 'O', 'P', ' ', '[', 'f', 'p', '+', '0', ']'] = .ok [0x99, 0x00, 0x40] ∧
  Assembler.assemble ['P', 'O', 'P', ' ', '[', 's', 'p', '-', '4', ']'] = .ok [0x99, 0xFC, 0x3F] ∧
  ∀ (base : BaseReg) (disp : Int) (s : State),
    (-8192 ≤ disp → disp ≤ 8191 →
      ∃ w : Half, w.toNat = 16384 * (Config.tag base).toNat + (disp % 16384).toNat ∧
        encode (.pop base disp) = [0x99, w.extractLsb' 0 8, w.extractLsb' 8 8]) ∧
    (StackInBounds s →
      (s.sp.toInt < s.sb.toInt + 4 → Raises .stackUnderflow s (exec (.pop base disp) s)) ∧
      (s.sb.toInt + 4 ≤ s.sp.toInt →
        let ea := resolveEA base disp (s.fetched .packed)
        if inMemory ea 4 then
          ∃ t, exec (.pop base disp) s = .next t ∧
            t = { s with ip := s.ip + 3, sp := s.sp - 4, mem := t.mem } ∧
            t.word ea.toNat = s.word (s.sp.toNat - 4) ∧ SameBytesOutside s t ea.toNat 4
        else Raises .memoryBounds s (exec (.pop base disp) s)))

/-- R184: `POP [sp-4]` only drops the top of stack: every byte of memory reads as before. -/
def Obligations.PopSpMinusFourDiscardsTheTop : Prop :=
  ∀ s, StackInBounds s → s.sb.toInt + 4 ≤ s.sp.toInt →
    ∃ t, exec (.pop .sp (-4)) s = .next t ∧
      t = { s with ip := s.ip + 3, sp := s.sp - 4, mem := t.mem } ∧ ∀ a, t.byte a = s.byte a

/-! ### Control transfer -/

/-- R190: JUMP sets `ip` and nothing else, whatever the target. -/
def Obligations.JumpSetsIpAlone : Prop :=
  OperandFetchRule 0x9B 3 ∧
  (∀ line label, Assembler.instruction line [.mnemonic .jump, .ident label]
    = .ok (some (.labelled .jump label))) ∧
  ∀ (target : Half) (s : State),
    encode (.jump target) = [0x9B, target.extractLsb' 0 8, target.extractLsb' 8 8] ∧
    exec (.jump target) s = .next { s with ip := target.setWidth 32 }

/-- R191: JZ consumes the top of stack and jumps exactly when it is zero. -/
def Obligations.JzBranchesOnZero : Prop :=
  OperandFetchRule 0x9C 3 ∧
  (∀ line label, Assembler.instruction line [.mnemonic .jz, .ident label]
    = .ok (some (.labelled .jz label))) ∧
  ∀ (target : Half) (s : State),
    encode (.jz target) = [0x9C, target.extractLsb' 0 8, target.extractLsb' 8 8] ∧
    (StackInBounds s →
      (s.sb.toInt + 4 ≤ s.sp.toInt →
        exec (.jz target) s = .next { s with
          ip := if s.word (s.sp.toNat - 4) = 0 then target.setWidth 32 else s.ip + 3
          sp := s.sp - 4 }) ∧
      (s.sp.toInt < s.sb.toInt + 4 → Raises .stackUnderflow s (exec (.jz target) s)))

/-- R192: CALL pushes the return address and the caller's `fp`, opens the frame and jumps; with room for
fewer than two slots it raises `StackOverflow`. -/
def Obligations.CallOpensAFrame : Prop :=
  OperandFetchRule 0x9A 3 ∧
  (∀ line label, Assembler.instruction line [.mnemonic .call, .ident label]
    = .ok (some (.labelled .call label))) ∧
  ∀ (target : Half) (s : State),
    encode (.call target) = [0x9A, target.extractLsb' 0 8, target.extractLsb' 8 8] ∧
    (0 ≤ s.sp.toInt → s.sp.toInt + 8 ≤ Config.memSize →
      ∃ t, exec (.call target) s = .next t ∧
        t = { s with ip := target.setWidth 32, sp := s.sp + 8, fp := s.sp + 8, mem := t.mem } ∧
        t.word s.sp.toNat = s.ip + 3 ∧ t.word (s.sp.toNat + 4) = s.fp ∧
        SameBytesOutside s t s.sp.toNat 8) ∧
    (0 ≤ s.sp.toInt → Config.memSize < s.sp.toInt + 8 →
      Raises .stackOverflow s (exec (.call target) s))

/-- R193: RET takes the return value, discards the frame, restores `fp` and `ip` from the saved slots
and leaves the return value in their place; each of its three pops can underflow, and a corrupted `fp`
beyond memory raises `MemoryBounds`. -/
def Obligations.RetClosesTheFrame : Prop :=
  encode .ret = [0x01] ∧ Assembler.assemble ['R', 'E', 'T'] = .ok [0x01] ∧
  ∀ s, StackInBounds s →
    (s.sb.toInt + 4 ≤ s.sp.toInt → s.sb.toInt + 8 ≤ s.fp.toInt → s.fp.toInt ≤ Config.memSize →
      ∃ t, exec .ret s = .next t ∧
        t = { s with
          ip := s.word (s.fp.toNat - 8)
          sp := s.fp - 4
          fp := s.word (s.fp.toNat - 4)
          mem := t.mem } ∧
        t.word (s.fp.toNat - 8) = s.word (s.sp.toNat - 4) ∧
        SameBytesOutside s t (s.fp.toNat - 8) 4) ∧
    (s.sp.toInt < s.sb.toInt + 4 ∨ s.fp.toInt < s.sb.toInt + 4 ∨
        (s.fp.toInt ≤ Config.memSize ∧ s.fp.toInt < s.sb.toInt + 8) →
      Raises .stackUnderflow s (exec .ret s)) ∧
    (s.sb.toInt + 4 ≤ s.sp.toInt → s.sb.toInt + 4 ≤ s.fp.toInt → Config.memSize < s.fp.toInt →
      Raises .memoryBounds s (exec .ret s))

/-- R192, R193: a RET undoes a CALL. Whatever the callee did in between, if `fp` is again what CALL set,
the two saved slots hold what CALL wrote, and a value stands above `fp`, then the caller resumes
after its CALL with its own `fp` and exactly that value added to its stack. -/
def Obligations.RetUndoesCall : Prop :=
  ∀ (target : Half) (s t u : State), StackInBounds s → s.sp.toInt + 8 ≤ Config.memSize →
    exec (.call target) s = .next t →
    u.fp = t.fp → u.sb = t.sb → u.fp.toInt + 4 ≤ u.sp.toInt → u.sp.toInt ≤ Config.memSize →
    u.word (t.fp.toNat - 8) = t.word (t.fp.toNat - 8) →
    u.word (t.fp.toNat - 4) = t.word (t.fp.toNat - 4) →
    ∃ w, exec .ret u = .next w ∧ w.ip = s.ip + 3 ∧ w.fp = s.fp ∧ w.sp = s.sp + 4 ∧
      w.word s.sp.toNat = u.word (u.sp.toNat - 4) ∧ SameBytesOutside u w s.sp.toNat 4

/-- R196: JUMP, CALL, a taken JZ and RET do not check their target; from one outside memory the next
step raises `FetchBounds` with that target recorded (the spec's decisions D15, D36). For RET the
target is the saved return address, any 32-bit pattern. -/
def Obligations.WildTargetFaultsAtTheNextFetch : Prop :=
  ∀ s : State, s.status = .running →
    (∀ target : Half, Config.memSize ≤ target.toNat →
      FaultsAtNextFetch (target.setWidth 32) (exec (.jump target) s) ∧
      (0 ≤ s.sp.toInt → s.sp.toInt + 8 ≤ Config.memSize →
        FaultsAtNextFetch (target.setWidth 32) (exec (.call target) s)) ∧
      (StackInBounds s → s.sb.toInt + 4 ≤ s.sp.toInt → s.word (s.sp.toNat - 4) = 0 →
        FaultsAtNextFetch (target.setWidth 32) (exec (.jz target) s))) ∧
    (StackInBounds s → s.sb.toInt + 4 ≤ s.sp.toInt → s.sb.toInt + 8 ≤ s.fp.toInt →
      s.fp.toInt ≤ Config.memSize →
      (s.word (s.fp.toNat - 8)).toInt < 0 ∨ Config.memSize ≤ (s.word (s.fp.toNat - 8)).toInt →
      FaultsAtNextFetch (s.word (s.fp.toNat - 8)) (exec .ret s))

/-! ### System and channels -/

/-- R200: NOP does nothing but advance `ip` (the spec's decision D21). -/
def Obligations.NopOnlyAdvancesIp : Prop :=
  encode .nop = [0x00] ∧ ∀ s, exec .nop s = .next { s with ip := s.ip + 1 }

/-- R201: HALT ends the run with `ip` past it and all else as it was (the spec's decision D22); the
outcome of a step asked for afterwards is this model's form of "no transition" (log 9). -/
def Obligations.HaltEndsTheRun : Prop :=
  encode .halt = [0x02] ∧
  ∀ s, ∃ t, exec .halt s = .next t ∧ t = { s with ip := s.ip + 1, status := .halted } ∧
    step t = .fault .halted

/-- R202: INPUT takes the next value of the channel and pushes it. The wait of an INPUT with nothing to
take, a step that leaves the state as it is, is this model's reading of R128 (log 8); the fault says
nothing of whether the value was consumed (U11, log 7). -/
def Obligations.InputPushesTheNextValue : Prop :=
  encode .input = [0x12] ∧
  ∀ s : State,
    (s.input = [] → exec .input s = .next s) ∧
    ∀ v rest, s.input = v :: rest →
      (inMemory s.sp.toInt 4 →
        ∃ t, exec .input s = .next t ∧
          t = { s with ip := s.ip + 1, sp := s.sp + 4, mem := t.mem, input := rest } ∧
          t.word s.sp.toNat = v ∧ SameBytesOutside s t s.sp.toNat 4) ∧
      (¬ inMemory s.sp.toInt 4 → Raises .stackOverflow s (exec .input s))

/-- R203: PRINT pops one value and appends it to the output; on an empty stack nothing is output. -/
def Obligations.PrintOutputsTheTopOfStack : Prop :=
  encode .print = [0x13] ∧
  ∀ s, StackInBounds s →
    (s.sb.toInt + 4 ≤ s.sp.toInt →
      exec .print s = .next { s with
        ip := s.ip + 1
        sp := s.sp - 4
        output := s.output ++ [s.word (s.sp.toNat - 4)] }) ∧
    (s.sp.toInt < s.sb.toInt + 4 → Raises .stackUnderflow s (exec .print s))

/-- R69: only INPUT reaches `IN` and only PRINT reaches `OUT`, over all instructions and states; INPUT
takes at most the oldest value, PRINT adds at most one. -/
def Obligations.OnlyInputAndPrintReachTheChannels : Prop :=
  ∀ (i : Instr) (s t : State), exec i s = .next t →
    (i ≠ .input → t.input = s.input) ∧ (t.input = s.input ∨ t.input = s.input.tail) ∧
    (i ≠ .print → t.output = s.output) ∧
    (t.output = s.output ∨ t.output = s.output ++ [s.word (s.sp.toNat - 4)])

/-! ### Fetch, decode and the step -/

/-- R120 to R124: when the bytes at `ip` decode to an instruction that lies inside memory, a running
unit's step is that instruction's `exec`; `exec` itself moves `ip` past the instruction (log 30). -/
def Obligations.StepRunsTheDecodedInstruction : Prop :=
  ∀ (s : State) (i : Instr), s.status = .running → inMemory s.ip.toInt i.length →
    decode (s.bytes s.ip.toNat i.length) = .ok (i, []) → step s = exec i s

/-- R121, R215: an opcode fetch outside memory raises `FetchBounds` with the `ip` itself recorded (the
spec's decision D15). -/
def Obligations.OpcodeFetchOutsideMemoryFaults : Prop :=
  ∀ s : State, s.status = .running → s.ip.toInt < 0 ∨ Config.memSize ≤ s.ip.toInt →
    Raises .fetchBounds s (step s)

/-- R83, R90, R91, R92: a first byte that is none of the 30 legal ones raises `DecodeFault`, wherever
it stands, so also where its operand field would lie outside memory (the spec's decisions D3, D4, and
D1 for the numbers). -/
def Obligations.IllegalFirstByteFaults : Prop :=
  ∀ s : State, s.status = .running → 0 ≤ s.ip.toInt → s.ip.toInt < Config.memSize →
    ¬ ((s.byte s.ip.toNat).toNat ≤ 0x17 ∨ s.byte s.ip.toNat = 0x58 ∨
      (0x98 ≤ (s.byte s.ip.toNat).toNat ∧ (s.byte s.ip.toNat).toNat ≤ 0x9C)) →
    Raises .decodeFault s (step s)

/-- R93, R123: register tag 3 in the operand of PUSH or POP raises `DecodeFault` (the spec's decision
D6), with the stack in any condition. -/
def Obligations.ReservedRegisterTagFaults : Prop := ReservedTagRule 0x98 ∧ ReservedTagRule 0x99

/-- R120: in `IDLE`, `HALTED` and `FAULTED` there is no transition (the spec's decision D42); the named
outcome is this model's (log 9). That every `RUNNING` unit has a next state counts in the step of an
INPUT that waits, which leaves the state as it is: this model's reading of R128 (log 8), where the spec
takes no step yet. -/
def Obligations.NoStepUnlessRunning : Prop :=
  ∀ s : State, (s.status = .running ↔ ∃ t, step s = .next t) ∧
    (s.status = .idle → step s = .fault .idle) ∧
    (s.status = .halted → step s = .fault .halted) ∧
    (s.status = .faulted → step s = .fault .faulted)

/-! ### Encoding -/

/-- R53, R84: the immediate is the four bytes after the opcode byte, the lowest address least
significant, and PUSH alone has one. -/
def Obligations.ImmediateIsLittleEndian : Prop :=
  (∀ i : Instr, i.format = .imm → i.mnemonic = .push) ∧
  ∀ (b0 b1 b2 b3 : Byte) (rest : List Byte),
    decode (0x58 :: b0 :: b1 :: b2 :: b3 :: rest) = .ok (.pushImm (b3 ++ b2 ++ b1 ++ b0), rest)

/-- R87, R88, R54: the 16 bits of a control-transfer operand are the target, with no register tag, low
byte first (the spec's decision D7 for the byte order). -/
def Obligations.TransferTargetIsAllSixteenBits : Prop :=
  ∀ (lo hi : Byte) (rest : List Byte),
    decode (0x9A :: lo :: hi :: rest) = .ok (.call (hi ++ lo), rest) ∧
    decode (0x9B :: lo :: hi :: rest) = .ok (.jump (hi ++ lo), rest) ∧
    decode (0x9C :: lo :: hi :: rest) = .ok (.jz (hi ++ lo), rest)

/-- R94: the length follows from the two top bits of the first byte alone: 1, 5 or 3. -/
def Obligations.LengthFollowsTheModeTag : Prop :=
  ∀ (b : Byte) (bs rest : List Byte) (i : Instr), decode (b :: bs) = .ok (i, rest) →
    bs.length + 1 = i.length + rest.length ∧ b.toNat / 64 < 3 ∧
    i.length = (if b.toNat / 64 = 0 then 1 else if b.toNat / 64 = 1 then 5 else 3)

/-- R80 to R89: decoding an encoded well-formed instruction gives it back, with whatever follows it left
over, every operand at every value its field admits. -/
def Obligations.DecodeInvertsEncode : Prop :=
  ∀ (i : Instr) (rest : List Byte), i.wellFormed = true → decode (encode i ++ rest) = .ok (i, rest)

/-- R80 to R93: whatever decodes is the encoding of a well-formed instruction, so no two byte sequences
are the same instruction. -/
def Obligations.EncodeInvertsDecode : Prop :=
  ∀ (i : Instr) (bs rest : List Byte), decode bs = .ok (i, rest) →
    i.wellFormed = true ∧ bs = encode i ++ rest

/-- Words written out from the encodings of R89 and of `95_test_vectors.md`, one of each family, and
some that are no instruction (the numbers are the spec's decisions D1, D5, D6). -/
def Obligations.WordsFromTheSpecDecode : Prop :=
  decode [0x04] = .ok (.sub, []) ∧ decode [0x10, 0x02] = .ok (.gt, [0x02]) ∧
  decode [0x17] = .ok (.ror, []) ∧ decode [0x13] = .ok (.print, []) ∧
  decode [0x58, 0xD2, 0x04, 0x00, 0x00] = .ok (.pushImm 1234, []) ∧
  decode [0x98, 0xF4, 0x7F] = .ok (.pushInd .fp (-12), []) ∧
  decode [0x99, 0xFC, 0x3F] = .ok (.pop .sp (-4), []) ∧
  decode [0x9C, 0x0E, 0x00] = .ok (.jz 14, []) ∧
  decode [0xC0] = .error .reservedMode ∧ decode [0x1D] = .error .unknownOpcode ∧
  decode [0x43] = .error .wrongMode ∧ decode [0x98, 0x00, 0xC0] = .error .reservedTag

/-! ### Memory and the stack primitives -/

/-- R51, R52, R55, R63: a word written inside memory puts its bits 8i+7 to 8i into the byte at `addr + i`
(the spec's decision D8), reads back as it was written, and changes no other byte; outside memory
nothing is written (the spec's decision D13). -/
def Obligations.WordReadsBackAsWritten : Prop :=
  ∀ (addr : Int) (v : W32) (s : State),
    (inMemory addr 4 →
      ∃ t, memWrite addr v s = .ok t ∧ t = { s with mem := t.mem } ∧ readWord addr t = .ok v ∧
        (∀ i, i < 4 → t.byte (addr.toNat + i) = v.extractLsb' (8 * i) 8) ∧
        SameBytesOutside s t addr.toNat 4) ∧
    (¬ inMemory addr 4 → memWrite addr v s = .error .memoryBounds ∧
      readWord addr s = .error .memoryBounds)

/-- R60, R61: what is pushed is popped again, with `sp` back where it was (the spec's decisions D9,
D41). -/
def Obligations.PopReturnsWhatWasPushed : Prop :=
  ∀ (v : W32) (s : State), StackInBounds s → s.sp.toInt + 4 ≤ Config.memSize →
    ∃ t, push32 v s = .ok t ∧ t.sp = s.sp + 4 ∧ pop32 t = .ok (v, { s with mem := t.mem })

/-- R67: a byte that nothing has written reads the same before and after every step that does not fault,
until it is written. That it is a free value and no fault is this model's choice among the two R67
offers (log 4). -/
def Obligations.UnwrittenByteIsStable : Prop :=
  ∀ (s t : State) (a : Nat), step s = .next t → t.status ≠ .faulted →
    Memory.get? t.mem a = none → Memory.get? s.mem a = none ∧ t.byte a = s.byte a

/-! ### Faults -/

/-- R218, R219, R222: a step that ends faulted recorded one of the six runtime kinds and its own `pc0`
(the spec's decision D24) and output nothing. That `sb` stays rests on R25, which has Load alone write
it, against the letter of R219, which leaves it unspecified (this model's choice, log 6). -/
def Obligations.FaultedStepRecordsItsInstruction : Prop :=
  ∀ s t : State, step s = .next t → t.status = .faulted →
    t.faddr = s.ip ∧ t.output = s.output ∧ t.sb = s.sb ∧
    t.fkind ∈ [FKind.stackUnderflow, .decodeFault, .stackOverflow, .memoryBounds, .fetchBounds,
      .arithmeticFault]

/-- R220: with the stack in bounds the Operation of an instruction raises no fault but those the table
gives it. -/
def Obligations.FaultsOfEachInstruction : Prop :=
  ∀ (i : Instr) (s t : State), StackInBounds s → s.status ≠ .faulted → exec i s = .next t →
    t.status = .faulted → t.fkind ∈ mayRaise i

/-- R25: Load sets `sb` and no step ever changes it. -/
def Obligations.NoStepChangesTheStackBase : Prop :=
  ∀ s t : State, step s = .next t → t.sb = s.sb

/-- R26: only HALT halts, over all instructions. -/
def Obligations.OnlyHaltHalts : Prop :=
  ∀ (i : Instr) (s t : State), s.status = .running → exec i s = .next t →
    (t.status = .halted ↔ i = .halt) ∧ t.status ≠ .idle

/-! ### Load, reset and the invariant -/

/-- R240, R37: an accepted Load, of up to and including `MEM_SIZE` bytes, in any state (the spec's
decision D27 allows any status). That it leaves the input channel as it was is this model's choice (log
3; R37 says "as the host supplies"). -/
def Obligations.LoadStartsTheImageAtZero : Prop :=
  ∀ (image : List Byte) (s : State), image.length ≤ Config.memSize →
    (s.load image).ip = 0 ∧ (s.load image).sp.toNat = image.length ∧
    (s.load image).fp.toNat = image.length ∧ (s.load image).sb.toNat = image.length ∧
    (s.load image).status = .running ∧ (s.load image).output = [] ∧
    (s.load image).input = s.input ∧
    ∀ (i : Nat) (h : i < image.length), (s.load image).byte i = image[i]

/-- R240, R217: a longer image is rejected with `LoadFault`, and the unit takes no step (the spec's
decision D40; the outcome of the step is this model's, log 9). -/
def Obligations.LoadRejectsALongImage : Prop :=
  ∀ (image : List Byte) (s : State), Config.memSize < image.length →
    (s.load image).status = .faulted ∧ (s.load image).fkind = .loadFault ∧
    (s.load image).output = [] ∧ step (s.load image) = .fault .faulted

/-- R243: the state after reset is, in everything the spec gives, the state after a Load of the empty
image (that `State.reset` is this state is this model's reading, log 1). -/
def Obligations.ResetIsTheEmptyLoad : Prop :=
  ∀ s : State,
    (s.load []).ip = State.reset.ip ∧ (s.load []).sp = State.reset.sp ∧
    (s.load []).fp = State.reset.fp ∧ (s.load []).sb = State.reset.sb ∧
    (s.load []).status = State.reset.status ∧ (s.load []).mem.cells = State.reset.mem.cells ∧
    (s.load []).output = State.reset.output

/-- The invariant holds after reset. -/
def Obligations.ResetMeetsTheInvariant : Prop := Inv State.reset

/-- The invariant holds after every Load, accepted or not, whatever the state before. -/
def Obligations.LoadEstablishesTheInvariant : Prop :=
  ∀ (image : List Byte) (s : State), Inv (s.load image)

/-- From every state that meets the invariant, a step leads to one that does: memory stays in canonical
form, and while the unit runs the stack stays between the stack base and the end of memory, through
every instruction, RET with a corrupted `fp` among them. -/
def Obligations.StepKeepsTheInvariant : Prop :=
  ∀ s t : State, Inv s → step s = .next t → Inv t

/-! ### Observer -/

/-- R129, R230: the observer is told of every completed step, and of those alone. Both calls carry the
address of the instruction and its mnemonic, the first the registers before, the second those after, on
halt exactly when the unit has halted. Of a faulting step (U12) and of an INPUT that waits this model
tells it nothing (log 27). -/
def Obligations.ObserverSeesACompletedStep : Prop :=
  (∀ (s : State) (calls : List HookCall), observe s = some calls →
    ∃ i t, fetch s = .ok i ∧ ¬ (i = .input ∧ s.input = []) ∧ step s = .next t ∧ t.status ≠ .faulted ∧
      calls = [⟨.beforeFetch, s.ip, i.mnemonic, s.ip, s.sp, s.fp⟩,
        ⟨if t.status = .halted then .onHalt else .afterExecute, s.ip, i.mnemonic, t.ip, t.sp, t.fp⟩]) ∧
  (∀ (s t : State) (i : Instr), s.status = .running → fetch s = .ok i →
    ¬ (i = .input ∧ s.input = []) → step s = .next t → t.status ≠ .faulted →
    observe s = some [⟨.beforeFetch, s.ip, i.mnemonic, s.ip, s.sp, s.fp⟩,
      ⟨if t.status = .halted then .onHalt else .afterExecute, s.ip, i.mnemonic, t.ip, t.sp, t.fp⟩])

/-! ### Assembler -/

/-- R108, R110: the image is as long as the encoded sizes of its instructions together, forward
references included. -/
def Obligations.ImageLengthIsTheSumOfSizes : Prop :=
  ∀ (source : List Char) (lines : List Assembler.Line) (image : List Byte),
    Assembler.parse source = .ok lines → Assembler.assemble source = .ok image →
    image.length = (lines.map Assembler.Line.size).sum

/-- R107, R109: a label operand becomes the total size of the instructions before the first line that
binds the label, wherever the reference stands; where that total does not fit 16 bits the assembly
fails and nothing is truncated (R106, R253); a label no line binds fails the assembly by name (R109,
R111). That the failure of an offset too large is `targetRange` with the label is this model's form, and
so is the type of both errors (log 31). -/
def Obligations.LabelResolvesToItsFirstBinding : Prop :=
  ∀ (t : Assembler.Transfer) (name : Assembler.Name) (before after : List Assembler.Line)
    (l : Assembler.Line),
    (∀ m ∈ before, m.label ≠ some name) →
    (l.label = some name →
      Assembler.resolve (Assembler.bindings 0 (before ++ l :: after)) (.labelled t name) =
        if (before.map Assembler.Line.size).sum < 65536 then
          .ok (t.instr (BitVec.ofNat 16 (before.map Assembler.Line.size).sum))
        else .error (.targetRange name)) ∧
    Assembler.resolve (Assembler.bindings 0 before) (.labelled t name) = .error (.unresolved name)

/-- R116, R110: every instruction of an assembled image decodes, at its own offset, to itself. -/
def Obligations.AssembledInstructionsDecode : Prop :=
  ∀ (source : List Char) (image : List Byte) (before after : List Instr) (i : Instr),
    Assembler.assemble source = .ok image →
    Assembler.assembleInstrs source = .ok (before ++ i :: after) →
    ∃ rest, decode (image.drop (before.map Instr.length).sum) = .ok (i, rest)
end

