-- ==== Sys2Proof/Laws/State.lean ====
section
/-! SUPPORT. One lemma per field per update of `State`. -/

namespace Sys2Proof.Machine

@[simp] theorem State.withIp_ip (v : Reg) (s : State) : (s.withIp v).ip = v := rfl
@[simp] theorem State.withIp_sp (v : Reg) (s : State) : (s.withIp v).sp = s.sp := rfl
@[simp] theorem State.withIp_fp (v : Reg) (s : State) : (s.withIp v).fp = s.fp := rfl
@[simp] theorem State.withIp_sb (v : Reg) (s : State) : (s.withIp v).sb = s.sb := rfl
@[simp] theorem State.withIp_status (v : Reg) (s : State) : (s.withIp v).status = s.status := rfl
@[simp] theorem State.withIp_fkind (v : Reg) (s : State) : (s.withIp v).fkind = s.fkind := rfl
@[simp] theorem State.withIp_faddr (v : Reg) (s : State) : (s.withIp v).faddr = s.faddr := rfl
@[simp] theorem State.withIp_mem (v : Reg) (s : State) : (s.withIp v).mem = s.mem := rfl
@[simp] theorem State.withIp_input (v : Reg) (s : State) : (s.withIp v).input = s.input := rfl
@[simp] theorem State.withIp_output (v : Reg) (s : State) : (s.withIp v).output = s.output := rfl

@[simp] theorem State.withSp_ip (v : Reg) (s : State) : (s.withSp v).ip = s.ip := rfl
@[simp] theorem State.withSp_sp (v : Reg) (s : State) : (s.withSp v).sp = v := rfl
@[simp] theorem State.withSp_fp (v : Reg) (s : State) : (s.withSp v).fp = s.fp := rfl
@[simp] theorem State.withSp_sb (v : Reg) (s : State) : (s.withSp v).sb = s.sb := rfl
@[simp] theorem State.withSp_status (v : Reg) (s : State) : (s.withSp v).status = s.status := rfl
@[simp] theorem State.withSp_fkind (v : Reg) (s : State) : (s.withSp v).fkind = s.fkind := rfl
@[simp] theorem State.withSp_faddr (v : Reg) (s : State) : (s.withSp v).faddr = s.faddr := rfl
@[simp] theorem State.withSp_mem (v : Reg) (s : State) : (s.withSp v).mem = s.mem := rfl
@[simp] theorem State.withSp_input (v : Reg) (s : State) : (s.withSp v).input = s.input := rfl
@[simp] theorem State.withSp_output (v : Reg) (s : State) : (s.withSp v).output = s.output := rfl

@[simp] theorem State.withFp_ip (v : Reg) (s : State) : (s.withFp v).ip = s.ip := rfl
@[simp] theorem State.withFp_sp (v : Reg) (s : State) : (s.withFp v).sp = s.sp := rfl
@[simp] theorem State.withFp_fp (v : Reg) (s : State) : (s.withFp v).fp = v := rfl
@[simp] theorem State.withFp_sb (v : Reg) (s : State) : (s.withFp v).sb = s.sb := rfl
@[simp] theorem State.withFp_status (v : Reg) (s : State) : (s.withFp v).status = s.status := rfl
@[simp] theorem State.withFp_fkind (v : Reg) (s : State) : (s.withFp v).fkind = s.fkind := rfl
@[simp] theorem State.withFp_faddr (v : Reg) (s : State) : (s.withFp v).faddr = s.faddr := rfl
@[simp] theorem State.withFp_mem (v : Reg) (s : State) : (s.withFp v).mem = s.mem := rfl
@[simp] theorem State.withFp_input (v : Reg) (s : State) : (s.withFp v).input = s.input := rfl
@[simp] theorem State.withFp_output (v : Reg) (s : State) : (s.withFp v).output = s.output := rfl

@[simp] theorem State.withStatus_ip (v : Status) (s : State) : (s.withStatus v).ip = s.ip := rfl
@[simp] theorem State.withStatus_sp (v : Status) (s : State) : (s.withStatus v).sp = s.sp := rfl
@[simp] theorem State.withStatus_fp (v : Status) (s : State) : (s.withStatus v).fp = s.fp := rfl
@[simp] theorem State.withStatus_sb (v : Status) (s : State) : (s.withStatus v).sb = s.sb := rfl
@[simp] theorem State.withStatus_status (v : Status) (s : State) : (s.withStatus v).status = v := rfl
@[simp] theorem State.withStatus_fkind (v : Status) (s : State) : (s.withStatus v).fkind = s.fkind := rfl
@[simp] theorem State.withStatus_faddr (v : Status) (s : State) : (s.withStatus v).faddr = s.faddr := rfl
@[simp] theorem State.withStatus_mem (v : Status) (s : State) : (s.withStatus v).mem = s.mem := rfl
@[simp] theorem State.withStatus_input (v : Status) (s : State) : (s.withStatus v).input = s.input := rfl
@[simp] theorem State.withStatus_output (v : Status) (s : State) : (s.withStatus v).output = s.output := rfl

@[simp] theorem State.withMem_ip (v : Memory) (s : State) : (s.withMem v).ip = s.ip := rfl
@[simp] theorem State.withMem_sp (v : Memory) (s : State) : (s.withMem v).sp = s.sp := rfl
@[simp] theorem State.withMem_fp (v : Memory) (s : State) : (s.withMem v).fp = s.fp := rfl
@[simp] theorem State.withMem_sb (v : Memory) (s : State) : (s.withMem v).sb = s.sb := rfl
@[simp] theorem State.withMem_status (v : Memory) (s : State) : (s.withMem v).status = s.status := rfl
@[simp] theorem State.withMem_fkind (v : Memory) (s : State) : (s.withMem v).fkind = s.fkind := rfl
@[simp] theorem State.withMem_faddr (v : Memory) (s : State) : (s.withMem v).faddr = s.faddr := rfl
@[simp] theorem State.withMem_mem (v : Memory) (s : State) : (s.withMem v).mem = v := rfl
@[simp] theorem State.withMem_input (v : Memory) (s : State) : (s.withMem v).input = s.input := rfl
@[simp] theorem State.withMem_output (v : Memory) (s : State) : (s.withMem v).output = s.output := rfl

@[simp] theorem State.withInput_ip (v : List W32) (s : State) : (s.withInput v).ip = s.ip := rfl
@[simp] theorem State.withInput_sp (v : List W32) (s : State) : (s.withInput v).sp = s.sp := rfl
@[simp] theorem State.withInput_fp (v : List W32) (s : State) : (s.withInput v).fp = s.fp := rfl
@[simp] theorem State.withInput_sb (v : List W32) (s : State) : (s.withInput v).sb = s.sb := rfl
@[simp] theorem State.withInput_status (v : List W32) (s : State) : (s.withInput v).status = s.status := rfl
@[simp] theorem State.withInput_fkind (v : List W32) (s : State) : (s.withInput v).fkind = s.fkind := rfl
@[simp] theorem State.withInput_faddr (v : List W32) (s : State) : (s.withInput v).faddr = s.faddr := rfl
@[simp] theorem State.withInput_mem (v : List W32) (s : State) : (s.withInput v).mem = s.mem := rfl
@[simp] theorem State.withInput_input (v : List W32) (s : State) : (s.withInput v).input = v := rfl
@[simp] theorem State.withInput_output (v : List W32) (s : State) : (s.withInput v).output = s.output := rfl

@[simp] theorem State.withOutput_ip (v : List W32) (s : State) : (s.withOutput v).ip = s.ip := rfl
@[simp] theorem State.withOutput_sp (v : List W32) (s : State) : (s.withOutput v).sp = s.sp := rfl
@[simp] theorem State.withOutput_fp (v : List W32) (s : State) : (s.withOutput v).fp = s.fp := rfl
@[simp] theorem State.withOutput_sb (v : List W32) (s : State) : (s.withOutput v).sb = s.sb := rfl
@[simp] theorem State.withOutput_status (v : List W32) (s : State) : (s.withOutput v).status = s.status := rfl
@[simp] theorem State.withOutput_fkind (v : List W32) (s : State) : (s.withOutput v).fkind = s.fkind := rfl
@[simp] theorem State.withOutput_faddr (v : List W32) (s : State) : (s.withOutput v).faddr = s.faddr := rfl
@[simp] theorem State.withOutput_mem (v : List W32) (s : State) : (s.withOutput v).mem = s.mem := rfl
@[simp] theorem State.withOutput_input (v : List W32) (s : State) : (s.withOutput v).input = s.input := rfl
@[simp] theorem State.withOutput_output (v : List W32) (s : State) : (s.withOutput v).output = v := rfl

end Sys2Proof.Machine
end

