-- ==== Sys2Proof/Laws/Word.lean ====
section
/-! SUPPORT. Words as integers: the small steps of a pointer do not wrap, and bytes put together give
back the number they were taken from. -/

namespace Sys2Proof

/-! ### The widths of this hardware as numbers -/

@[simp] theorem Config.byteBits_eq : Config.byteBits = 8 := rfl
@[simp] theorem Config.wordBits_eq : Config.wordBits = 32 := rfl
@[simp] theorem Config.regBits_eq : Config.regBits = 32 := rfl
@[simp] theorem Config.operandBits_eq : Config.operandBits = 16 := rfl
@[simp] theorem Config.opcBits_eq : Config.opcBits = 6 := rfl
@[simp] theorem Config.modeBits_eq : Config.modeBits = 2 := rfl
@[simp] theorem Config.tagBits_eq : Config.tagBits = 2 := rfl
@[simp] theorem Config.dispBits_eq : Config.dispBits = 14 := rfl
@[simp] theorem Config.wordSize_eq : Config.wordSize = 4 := rfl
@[simp] theorem Config.operandSize_eq : Config.operandSize = 2 := rfl
@[simp] theorem intMin_eq : intMin = -2147483648 := rfl
@[simp] theorem intMax_eq : intMax = 2147483647 := rfl

@[simp] theorem wordOfReg_eq (r : Reg) : wordOfReg r = r := BitVec.signExtend_eq r
@[simp] theorem regOfWord_eq (v : W32) : regOfWord v = v := BitVec.signExtend_eq v

/-! ### Words as integers -/

theorem byte_lt (b : Byte) : b.toNat < 256 := b.isLt
theorem half_lt (w : Half) : w.toNat < 65536 := w.isLt
theorem word_lt (v : W32) : v.toNat < 4294967296 := v.isLt

/-- The displacements a 14-bit field holds, in numbers (R86, R183). -/
theorem dispInRange_iff (disp : Int) : dispInRange disp = true ↔ -8192 ≤ disp ∧ disp ≤ 8191 := by
  simp only [dispInRange, Config.dispBits, Bool.and_eq_true, decide_eq_true_eq]
  norm_num
  omega

theorem toNat_of_toInt_nonneg {x : W32} (h : 0 ≤ x.toInt) : (x.toNat : Int) = x.toInt := by
  rw [BitVec.toInt_eq_toNat_cond] at h ⊢
  split at h <;> rename_i h2
  · rw [if_pos h2]
  · omega

theorem toInt_toNat_of_nonneg {x : W32} (h : 0 ≤ x.toInt) : x.toInt.toNat = x.toNat := by
  have := toNat_of_toInt_nonneg h
  omega

theorem toInt_add_of_small {x : W32} {n : Nat} (h : 0 ≤ x.toInt) (h' : x.toInt + n < 2147483648) :
    (x + BitVec.ofNat 32 n).toInt = x.toInt + n := by
  rw [BitVec.toInt_add, BitVec.toInt_ofNat', Int.add_bmod_bmod]
  exact Int.bmod_eq_of_le (by norm_num; omega) (by norm_num; omega)

theorem toInt_sub_of_small {x : W32} {n : Nat} (h : -2147483648 ≤ x.toInt - n) :
    (x - BitVec.ofNat 32 n).toInt = x.toInt - n := by
  have hx := BitVec.toInt_lt (x := x)
  rw [BitVec.toInt_sub, BitVec.toInt_ofNat', Int.sub_bmod_bmod]
  exact Int.bmod_eq_of_le (by norm_num; omega) (by norm_num at hx ⊢; omega)

theorem toInt_ofNat_of_small {n : Nat} (h : n < 2147483648) : (BitVec.ofNat 32 n).toInt = n := by
  rw [BitVec.toInt_ofNat']
  exact Int.bmod_eq_of_le (by norm_num) (by norm_num; omega)

/-! ### Bytes -/

theorem littleBytes_succ (n v : Nat) :
    littleBytes (n + 1) v = BitVec.ofNat 8 v :: littleBytes n (v / 256) := rfl

theorem valueOfBytes_cons (b : Byte) (bs : List Byte) :
    valueOfBytes .little (b :: bs) = b.toNat + 256 * valueOfBytes .little bs := rfl

@[simp] theorem length_littleBytes (n v : Nat) : (littleBytes n v).length = n := by
  induction n generalizing v with
  | zero => rfl
  | succ n ih => simp [littleBytes, ih]

/-- The bytes of a number give back the number, as far as they reach. -/
theorem valueOfBytes_littleBytes (n v : Nat) :
    valueOfBytes .little (littleBytes n v) = v % 256 ^ n := by
  induction n generalizing v with
  | zero => simp [littleBytes, valueOfBytes, Nat.mod_one]
  | succ n ih =>
    rw [littleBytes_succ, valueOfBytes_cons, ih, BitVec.toNat_ofNat, show 2 ^ 8 = 256 from rfl, Nat.pow_succ, Nat.mul_comm (256 ^ n) 256, Nat.mod_mul]

/-- A number read from bytes gives back the bytes. -/
theorem littleBytes_valueOfBytes (bs : List Byte) :
    littleBytes bs.length (valueOfBytes .little bs) = bs := by
  induction bs with
  | nil => rfl
  | cons b bs ih =>
    have hb : b.toNat < 256 := b.isLt
    have hd : (b.toNat + 256 * valueOfBytes .little bs) / 256 = valueOfBytes .little bs := by omega
    have hm : BitVec.ofNat 8 (b.toNat + 256 * valueOfBytes .little bs) = b := by
      apply BitVec.eq_of_toNat_eq
      simp only [BitVec.toNat_ofNat]
      omega
    rw [valueOfBytes_cons, List.length_cons, littleBytes_succ, hm, hd, ih]

theorem valueOfBytes_lt (bs : List Byte) : valueOfBytes .little bs < 256 ^ bs.length := by
  induction bs with
  | nil => simp [valueOfBytes]
  | cons b bs ih =>
    have hb : b.toNat < 256 := b.isLt
    rw [valueOfBytes_cons, List.length_cons, Nat.pow_succ]
    omega

/-- The mode tag of an opcode byte put together from its fields (R81). -/
theorem modeField_append (mode : BitVec 2) (opc : BitVec 6) : modeField (mode ++ opc) = mode := by
  revert mode opc
  decide

/-- The operation code of an opcode byte put together from its fields (R81). -/
theorem opcField_append (mode : BitVec 2) (opc : BitVec 6) : opcField (mode ++ opc) = opc := by
  revert mode opc
  decide

end Sys2Proof
end

