-- ==== Sys2Proof/Laws/Memory.lean ====
section
/-! SUPPORT. Memory: a read after a write, and that every operation keeps the canonical form. -/

namespace Sys2Proof.Machine

@[simp] theorem Cells.get?_set_same (m : Cells) (a : Nat) (v : Byte) :
    Cells.get? (Cells.set m a v) a = some v := by
  induction m with
  | nil => simp [Cells.set, Cells.get?]
  | cons c m ih =>
    obtain ⟨k, w⟩ := c
    simp only [Cells.set]
    split
    · simp [Cells.get?]
    · split
      · simp [Cells.get?]
      · rename_i h
        simp [Cells.get?, ih, Ne.symm h]

theorem Cells.get?_set_other (m : Cells) {a b : Nat} (v : Byte) (h : b ≠ a) :
    Cells.get? (Cells.set m a v) b = Cells.get? m b := by
  induction m with
  | nil => simp [Cells.set, Cells.get?, Ne.symm h]
  | cons c m ih =>
    obtain ⟨k, w⟩ := c
    simp only [Cells.set]
    split
    · simp [Cells.get?, Ne.symm h]
    · split
      · rename_i hk
        subst hk
        simp [Cells.get?, Ne.symm h]
      · simp [Cells.get?, ih]

theorem Cells.mem_set (m : Cells) (a : Nat) (v : Byte) (c : Host.Cell)
    (h : c ∈ Cells.set m a v) : c = (a, v) ∨ c ∈ m := by
  induction m with
  | nil => simpa [Cells.set] using h
  | cons d m ih =>
    obtain ⟨k, w⟩ := d
    simp only [Cells.set] at h
    split at h
    · simpa using h
    · split at h
      · simp only [List.mem_cons] at h ⊢
        exact h.elim Or.inl (fun h => .inr (.inr h))
      · simp only [List.mem_cons] at h ⊢
        rcases h with h | h
        · exact .inr (.inl h)
        · exact (ih h).elim Or.inl (fun h => .inr (.inr h))

/-- Writing a byte inside the array keeps the canonical form. -/
theorem Cells.wf_set {m : Cells} {a : Nat} (v : Byte) (hm : Cells.Wf m)
    (ha : a < Config.memSize) : Cells.Wf (Cells.set m a v) := by
  refine ⟨?_, fun c hc => ?_⟩
  · have hp := hm.1
    clear hm ha
    induction m with
    | nil => simp [Cells.set]
    | cons d m ih =>
      obtain ⟨k, w⟩ := d
      simp only [Cells.set]
      rw [List.pairwise_cons] at hp
      split
      · rename_i hak
        refine List.pairwise_cons.2 ⟨fun c hc => ?_, List.pairwise_cons.2 hp⟩
        rcases List.mem_cons.1 hc with rfl | hc
        · exact hak
        · exact Nat.lt_trans hak (hp.1 c hc)
      · split
        · rename_i hak
          subst hak
          exact List.pairwise_cons.2 hp
        · refine List.pairwise_cons.2 ⟨fun c hc => ?_, ih hp.2⟩
          rcases Cells.mem_set m a v c hc with rfl | hc
          · show k < a
            omega
          · exact hp.1 c hc
  · rcases Cells.mem_set m a v c hc with rfl | hc
    · exact ha
    · exact hm.2 c hc

/-- Writing bytes inside the array keeps the canonical form. -/
theorem Cells.wf_write {m : Cells} {a : Nat} {bs : List Byte} (hm : Cells.Wf m)
    (ha : a + bs.length ≤ Config.memSize) : Cells.Wf (Cells.write m a bs) := by
  induction bs generalizing m a with
  | nil => exact hm
  | cons b bs ih =>
    rw [List.length_cons] at ha
    exact ih (Cells.wf_set b hm (by omega)) (by omega)

theorem Cells.get?_write_outside (m : Cells) {a b : Nat} (bs : List Byte)
    (h : b < a ∨ a + bs.length ≤ b) : Cells.get? (Cells.write m a bs) b = Cells.get? m b := by
  induction bs generalizing m a with
  | nil => rfl
  | cons c bs ih =>
    rw [List.length_cons] at h
    rw [Cells.write, ih _ (by omega), Cells.get?_set_other _ _ (by omega)]

theorem Cells.get?_write_inside (m : Cells) (a : Nat) (bs : List Byte) (i : Nat)
    (h : i < bs.length) : Cells.get? (Cells.write m a bs) (a + i) = some bs[i] := by
  induction bs generalizing m a i with
  | nil => simp at h
  | cons c bs ih =>
    rw [Cells.write]
    cases i with
    | zero =>
      rw [Cells.get?_write_outside _ _ (by omega)]
      simp
    | succ i =>
      have := ih (Cells.set m a c) (a + 1) i (by simpa using h)
      rw [show a + (i + 1) = a + 1 + i by omega, this]
      simp

@[simp] theorem Memory.write_draw (m : Memory) (a : Nat) (bs : List Byte) :
    (m.write a bs).draw = m.draw := rfl
@[simp] theorem Memory.redrawn_cells (m : Memory) : m.redrawn.cells = [] := rfl
@[simp] theorem Memory.redrawn_get? (m : Memory) (a : Nat) : m.redrawn.get? a = none := rfl

/-- Writing bytes inside the array keeps the canonical form. -/
theorem Memory.wf_write {m : Memory} {a : Nat} {bs : List Byte} (hm : Memory.Wf m)
    (ha : a + bs.length ≤ Config.memSize) : Memory.Wf (m.write a bs) := Cells.wf_write hm ha

theorem Memory.wf_redrawn (m : Memory) : Memory.Wf m.redrawn := ⟨.nil, by simp⟩

theorem Memory.get?_write_outside (m : Memory) {a b : Nat} (bs : List Byte)
    (h : b < a ∨ a + bs.length ≤ b) : (m.write a bs).get? b = m.get? b :=
  Cells.get?_write_outside m.cells bs h

theorem Memory.get?_write_inside (m : Memory) (a : Nat) (bs : List Byte) (i : Nat)
    (h : i < bs.length) : (m.write a bs).get? (a + i) = some bs[i] :=
  Cells.get?_write_inside m.cells a bs i h

@[simp] theorem State.byte_withIp (v : Reg) (s : State) (a : Nat) :
    (s.withIp v).byte a = s.byte a := rfl
@[simp] theorem State.byte_withSp (v : Reg) (s : State) (a : Nat) :
    (s.withSp v).byte a = s.byte a := rfl
@[simp] theorem State.byte_withFp (v : Reg) (s : State) (a : Nat) :
    (s.withFp v).byte a = s.byte a := rfl
@[simp] theorem State.byte_withStatus (v : Status) (s : State) (a : Nat) :
    (s.withStatus v).byte a = s.byte a := rfl
@[simp] theorem State.byte_withInput (v : List W32) (s : State) (a : Nat) :
    (s.withInput v).byte a = s.byte a := rfl
@[simp] theorem State.byte_withOutput (v : List W32) (s : State) (a : Nat) :
    (s.withOutput v).byte a = s.byte a := rfl

@[simp] theorem State.word_withIp (v : Reg) (s : State) (a : Nat) :
    (s.withIp v).word a = s.word a := rfl
@[simp] theorem State.word_withSp (v : Reg) (s : State) (a : Nat) :
    (s.withSp v).word a = s.word a := rfl
@[simp] theorem State.word_withFp (v : Reg) (s : State) (a : Nat) :
    (s.withFp v).word a = s.word a := rfl
@[simp] theorem State.word_withStatus (v : Status) (s : State) (a : Nat) :
    (s.withStatus v).word a = s.word a := rfl
@[simp] theorem State.word_withInput (v : List W32) (s : State) (a : Nat) :
    (s.withInput v).word a = s.word a := rfl
@[simp] theorem State.word_withOutput (v : List W32) (s : State) (a : Nat) :
    (s.withOutput v).word a = s.word a := rfl

@[simp] theorem State.length_bytes (s : State) (a n : Nat) : (s.bytes a n).length = n := by
  simp [State.bytes]

@[simp] theorem length_bytesOfWord (v : W32) : (bytesOfWord v).length = 4 := by
  simp [bytesOfWord, bytesOfValue]

/-- The word at an address, from its four bytes (R51, R55). -/
theorem State.word_eq (s : State) (a : Nat) : s.word a = wordOfBytes (s.bytes a 4) := rfl

/-- A word's bytes give back the word. -/
@[simp] theorem wordOfBytes_bytesOfWord (v : W32) : wordOfBytes (bytesOfWord v) = v := by
  have hv : v.toNat < 4294967296 := v.isLt
  have h : valueOfBytes .little (littleBytes 4 v.toNat) = v.toNat := by
    rw [valueOfBytes_littleBytes]
    exact Nat.mod_eq_of_lt hv
  show BitVec.ofNat 32 (valueOfBytes .little (littleBytes 4 v.toNat)) = v
  rw [h, BitVec.ofNat_toNat, BitVec.setWidth_eq]

/-- Four bytes read as a word and taken apart again are the same four bytes. -/
theorem bytesOfWord_wordOfBytes {bs : List Byte} (h : bs.length = 4) :
    bytesOfWord (wordOfBytes bs) = bs := by
  have hlt : valueOfBytes .little bs < 4294967296 := by
    have := valueOfBytes_lt bs
    rw [h] at this
    exact this
  show littleBytes 4 (BitVec.ofNat 32 (valueOfBytes .little bs)).toNat = bs
  rw [BitVec.toNat_ofNat, Nat.mod_eq_of_lt hlt, ← h, littleBytes_valueOfBytes]

/-- The state after a word is written at `a`. -/
def State.store (s : State) (a : Nat) (v : W32) : State :=
  s.withMem (Memory.write s.mem a (bytesOfWord v))

theorem State.byte_store_outside (s : State) {a b : Nat} (v : W32) (h : b < a ∨ a + 4 ≤ b) :
    (s.store a v).byte b = s.byte b := by
  simp only [State.byte, State.store, State.withMem_mem, Memory.write_draw]
  rw [Memory.get?_write_outside _ _ (by simpa using h)]

theorem State.bytes_store (s : State) (a : Nat) (v : W32) :
    (s.store a v).bytes a 4 = bytesOfWord v := by
  apply List.ext_getElem (by simp)
  intro i h _
  have hi : i < (bytesOfWord v).length := by simpa using h
  simp only [State.bytes, List.getElem_map, List.getElem_range, State.byte, State.store,
    State.withMem_mem]
  rw [Memory.get?_write_inside _ _ _ i hi, Option.getD_some]

/-- A word reads back as it was written (R52, R55, R63). -/
@[simp] theorem State.word_store_same (s : State) (a : Nat) (v : W32) :
    (s.store a v).word a = v := by
  rw [State.word_eq, State.bytes_store, wordOfBytes_bytesOfWord]

/-- A word is what its four bytes are. -/
theorem State.word_congr {s t : State} {a : Nat}
    (h : ∀ b, a ≤ b → b < a + 4 → s.byte b = t.byte b) : s.word a = t.word a := by
  have hb : s.bytes a 4 = t.bytes a 4 := by
    simp only [State.bytes]
    apply List.map_congr_left
    intro i hi
    have := List.mem_range.1 hi
    exact h _ (by omega) (by omega)
  rw [State.word_eq, State.word_eq, hb]

/-- A write leaves the words beside it alone (R52, R63). -/
theorem State.word_store_outside (s : State) {a b : Nat} (v : W32) (h : b + 4 ≤ a ∨ a + 4 ≤ b) :
    (s.store a v).word b = s.word b :=
  State.word_congr (fun c _ _ => State.byte_store_outside s v (by omega))

@[simp] theorem State.store_ip (s : State) (a : Nat) (v : W32) : (s.store a v).ip = s.ip := rfl
@[simp] theorem State.store_sp (s : State) (a : Nat) (v : W32) : (s.store a v).sp = s.sp := rfl
@[simp] theorem State.store_fp (s : State) (a : Nat) (v : W32) : (s.store a v).fp = s.fp := rfl
@[simp] theorem State.store_sb (s : State) (a : Nat) (v : W32) : (s.store a v).sb = s.sb := rfl

end Sys2Proof.Machine
end

