-- ==== Sys2Proof/Laws/Ops.lean ====
section
/-! SUPPORT. What each shared operation can do: when it answers, with what, and when it faults. -/

namespace Sys2Proof.Machine

/-! ### Memory accesses -/

theorem memRead_of_inMemory (acc : Access) {addr : Int} {n : Nat} (s : State)
    (h : inMemory addr n) : memRead acc addr n s = .ok (s.bytes addr.toNat n) := if_pos h

theorem memRead_of_not_inMemory (acc : Access) {addr : Int} {n : Nat} (s : State)
    (h : ¬ inMemory addr n) : memRead acc addr n s = .error acc.fault := if_neg h

theorem readWord_of_inMemory {addr : Int} (s : State) (h : inMemory addr 4) :
    readWord addr s = .ok (s.word addr.toNat) := by
  rw [readWord, Config.wordSize_eq, memRead_of_inMemory _ _ h, State.word_eq]

theorem readWord_of_not_inMemory {addr : Int} (s : State) (h : ¬ inMemory addr 4) :
    readWord addr s = .error .memoryBounds := by
  rw [readWord, Config.wordSize_eq, memRead_of_not_inMemory _ _ h, Access.fault]

/-- A word read lies inside memory. -/
theorem readWord_ok {addr : Int} {s : State} {v : W32} (h : readWord addr s = .ok v) :
    inMemory addr 4 ∧ v = s.word addr.toNat := by
  by_cases hm : inMemory addr 4
  · rw [readWord_of_inMemory _ hm] at h
    exact ⟨hm, by simpa using h.symm⟩
  · rw [readWord_of_not_inMemory _ hm] at h
    cases h

/-- A word read faults only outside memory. -/
theorem readWord_error {addr : Int} {s : State} {k : FKind} (h : readWord addr s = .error k) :
    k = .memoryBounds := by
  by_cases hm : inMemory addr 4
  · rw [readWord_of_inMemory _ hm] at h
    cases h
  · rw [readWord_of_not_inMemory _ hm] at h
    simpa using h.symm

theorem memWrite_of_inMemory {addr : Int} (v : W32) (s : State) (h : inMemory addr 4) :
    memWrite addr v s = .ok (s.store addr.toNat v) := if_pos h

theorem memWrite_of_not_inMemory {addr : Int} (v : W32) (s : State) (h : ¬ inMemory addr 4) :
    memWrite addr v s = .error .memoryBounds := if_neg h

/-- A write that answers wrote inside memory and changed nothing else. -/
theorem memWrite_ok {addr : Int} {v : W32} {s t : State} (h : memWrite addr v s = .ok t) :
    inMemory addr 4 ∧ t = s.store addr.toNat v := by
  by_cases hm : inMemory addr 4
  · rw [memWrite_of_inMemory _ _ hm] at h
    exact ⟨hm, by simpa using h.symm⟩
  · rw [memWrite_of_not_inMemory _ _ hm] at h
    cases h

/-- A word stored inside memory keeps the canonical form. -/
theorem State.store_wf {s : State} {a : Nat} (v : W32) (hs : Memory.Wf s.mem)
    (ha : a + 4 ≤ Config.memSize) : Memory.Wf (s.store a v).mem :=
  Memory.wf_write hs (by simpa using ha)

/-! ### Stack primitives -/

theorem push32_of_inMemory (v : W32) (s : State) (h : inMemory s.sp.toInt Config.slot) :
    push32 v s = .ok ((s.store s.sp.toNat v).withSp (s.sp + 4)) := by
  rw [push32, if_pos h, memWrite_of_inMemory v s h, toInt_toNat_of_nonneg h.1]
  rfl

theorem push32_of_not_inMemory (v : W32) (s : State) (h : ¬ inMemory s.sp.toInt Config.slot) :
    push32 v s = .error .stackOverflow := if_neg h

/-- A push that answers wrote its word at `sp`, inside memory, and advanced `sp` by one slot. -/
theorem push32_ok {v : W32} {s t : State} (h : push32 v s = .ok t) :
    inMemory s.sp.toInt Config.slot ∧ t = (s.store s.sp.toNat v).withSp (s.sp + 4) := by
  by_cases hm : inMemory s.sp.toInt Config.slot
  · rw [push32_of_inMemory v s hm] at h
    exact ⟨hm, by simpa using h.symm⟩
  · rw [push32_of_not_inMemory v s hm] at h
    cases h

/-- The slot below `sp` can be popped: it lies above the stack base and inside memory. -/
abbrev canPop (s : State) : Prop :=
  s.sb.toInt ≤ s.sp.toInt - 4 ∧ 0 ≤ s.sp.toInt - 4 ∧ s.sp.toInt ≤ Config.memSize

theorem toInt_sp_sub {s : State} (h : 0 ≤ s.sp.toInt - 4) :
    (s.sp - 4).toInt = s.sp.toInt - 4 :=
  toInt_sub_of_small (n := 4) (by omega)

theorem toNat_sp_sub {s : State} (h : 0 ≤ s.sp.toInt - 4) :
    (s.sp - 4).toNat = s.sp.toNat - 4 := by
  have h1 := toInt_sp_sub h
  have h2 := toNat_of_toInt_nonneg (x := s.sp) (by omega)
  have h3 := toNat_of_toInt_nonneg (x := s.sp - 4) (by omega)
  omega

theorem pop32_of_canPop {s : State} (h : canPop s) :
    pop32 s = .ok (s.word (s.sp.toNat - 4), s.withSp (s.sp - 4)) := by
  obtain ⟨h1, h2, h3⟩ := h
  have hsp := toInt_sp_sub h2
  have hm : inMemory (s.sp - 4).toInt 4 := ⟨by omega, by omega⟩
  have hr : readWord (s.sp - 4).toInt (s.withSp (s.sp - 4)) = .ok (s.word (s.sp.toNat - 4)) := by
    rw [readWord_of_inMemory _ hm, toInt_toNat_of_nonneg hm.1, toNat_sp_sub h2, State.word_withSp]
  have hu : ¬ s.sp.toInt - (Config.slot : Int) < s.sb.toInt := by
    show ¬ s.sp.toInt - 4 < s.sb.toInt
    omega
  rw [pop32, if_neg hu, if_neg (by omega)]
  show (match readWord (s.sp - 4).toInt (s.withSp (s.sp - 4)) with
    | .error k => Except.error k
    | .ok v => .ok (v, s.withSp (s.sp - 4))) = _
  rw [hr]

/-- A pop on an empty stack, or within a slot of the base, underflows (R61, R211). -/
theorem pop32_underflow {s : State} (h : s.sp.toInt - 4 < s.sb.toInt) :
    pop32 s = .error .stackUnderflow := if_pos h

/-- A pop above the stack base with `sp` beyond the array (R61, R214). -/
theorem pop32_beyond {s : State} (h : s.sb.toInt ≤ s.sp.toInt - 4)
    (h' : Config.memSize < s.sp.toInt) : pop32 s = .error .memoryBounds := by
  have hu : ¬ s.sp.toInt - (Config.slot : Int) < s.sb.toInt := by
    show ¬ s.sp.toInt - 4 < s.sb.toInt
    omega
  rw [pop32, if_neg hu, if_pos h']

/-- A pop that answers had a slot to pop, read it, and moved `sp` down by one slot. -/
theorem pop32_ok {s t : State} {v : W32} (h : pop32 s = .ok (v, t)) :
    canPop s ∧ v = s.word (s.sp.toNat - 4) ∧ t = s.withSp (s.sp - 4) := by
  have hc : canPop s := by
    by_cases h1 : s.sp.toInt - 4 < s.sb.toInt
    · rw [pop32_underflow h1] at h
      cases h
    · by_cases h2 : Config.memSize < s.sp.toInt
      · rw [pop32_beyond (by omega) h2] at h
        cases h
      · refine ⟨by omega, ?_, by omega⟩
        by_contra h3
        have hlt := BitVec.le_toInt s.sp
        have hsub : -2147483648 ≤ s.sp.toInt - 4 := by
          have := BitVec.le_toInt s.sb
          norm_num at this
          omega
        have hsp : (s.sp - 4).toInt = s.sp.toInt - 4 := toInt_sub_of_small (n := 4) hsub
        have hm : ¬ inMemory (s.sp - 4).toInt 4 := fun hm => by
          have := hm.1
          omega
        have hr := readWord_of_not_inMemory (s.withSp (s.sp - 4)) hm
        have hu : ¬ s.sp.toInt - (Config.slot : Int) < s.sb.toInt := h1
        rw [pop32, if_neg hu, if_neg h2] at h
        change (match readWord (s.sp - 4).toInt (s.withSp (s.sp - 4)) with
          | .error k => Except.error k
          | .ok v => .ok (v, s.withSp (s.sp - 4))) = _ at h
        rw [hr] at h
        cases h
  rw [pop32_of_canPop hc] at h
  simp only [Except.ok.injEq, Prod.mk.injEq] at h
  exact ⟨hc, h.1.symm, h.2.symm⟩

/-- Why a pop faults: a slot too few above the base, or a slot outside memory (R61). -/
theorem pop32_error {s : State} {k : FKind} (h : pop32 s = .error k) :
    (k = .stackUnderflow ∧ s.sp.toInt - 4 < s.sb.toInt) ∨
      (k = .memoryBounds ∧ s.sb.toInt ≤ s.sp.toInt - 4 ∧ ¬ canPop s) := by
  by_cases h1 : s.sp.toInt - 4 < s.sb.toInt
  · rw [pop32_underflow h1] at h
    exact .inl ⟨by simpa using h.symm, h1⟩
  · have hu : ¬ s.sp.toInt - (Config.slot : Int) < s.sb.toInt := h1
    refine .inr ⟨?_, by omega, fun hc => ?_⟩
    · rw [pop32, if_neg hu] at h
      split at h
      · simpa using h.symm
      · change (match readWord (s.sp - 4).toInt (s.withSp (s.sp - 4)) with
          | .error k => Except.error k
          | .ok v => .ok (v, s.withSp (s.sp - 4))) = _ at h
        split at h
        · rename_i e he
          have := readWord_error he
          simp only [Except.error.injEq] at h
          rw [← h, this]
        · cases h
    · rw [pop32_of_canPop hc] at h
      cases h

/-- A push faults only by overflowing (R60). -/
theorem push32_error {v : W32} {s : State} {k : FKind} (h : push32 v s = .error k) :
    k = .stackOverflow ∧ ¬ inMemory s.sp.toInt Config.slot := by
  by_cases hm : inMemory s.sp.toInt Config.slot
  · rw [push32_of_inMemory v s hm] at h
    cases h
  · rw [push32_of_not_inMemory v s hm] at h
    exact ⟨by simpa using h.symm, hm⟩

/-! ### The end of an instruction -/

@[simp] theorem complete_ok (s s' : State) : complete s (.ok s') = .next s' := rfl
@[simp] theorem complete_error (s : State) (k : FKind) :
    complete s (.error k) = .next (raise k s.ip s) := rfl

/-- An instruction that ends always gives a next state: its last one, or its recorded fault. -/
theorem complete_next {s t : State} {r : Except FKind State} (h : complete s r = .next t) :
    r = .ok t ∨ ∃ k, r = .error k ∧ t = raise k s.ip s := by
  cases r with
  | ok s' => exact .inl (by simpa using h)
  | error k => exact .inr ⟨k, rfl, by simpa using h.symm⟩

@[simp] theorem raise_status (k : FKind) (a : Reg) (s : State) :
    (raise k a s).status = .faulted := rfl
@[simp] theorem raise_fkind (k : FKind) (a : Reg) (s : State) : (raise k a s).fkind = k := rfl
@[simp] theorem raise_faddr (k : FKind) (a : Reg) (s : State) : (raise k a s).faddr = a := rfl
@[simp] theorem raise_sb (k : FKind) (a : Reg) (s : State) : (raise k a s).sb = s.sb := rfl
@[simp] theorem raise_input (k : FKind) (a : Reg) (s : State) : (raise k a s).input = s.input := rfl
@[simp] theorem raise_output (k : FKind) (a : Reg) (s : State) :
    (raise k a s).output = s.output := rfl
@[simp] theorem raise_mem (k : FKind) (a : Reg) (s : State) : (raise k a s).mem = s.mem.redrawn := rfl

theorem raise_wf (k : FKind) (a : Reg) (s : State) : Memory.Wf (raise k a s).mem :=
  Memory.wf_redrawn s.mem

theorem reset_mem_wf : Memory.Wf State.reset.mem := ⟨.nil, by simp [State.reset]⟩

@[simp] theorem State.fetched_eq_withIp (f : Format) (s : State) :
    s.fetched f = s.withIp (s.ip + BitVec.ofNat 32 f.length) := rfl

/-! ### Load -/

theorem State.load_of_fits {image : List Byte} (s : State) (h : image.length ≤ Config.memSize) :
    s.load image = s.loadAccepted image := if_neg (by omega)

theorem State.load_of_too_long {image : List Byte} (s : State)
    (h : Config.memSize < image.length) : s.load image = s.loadRejected := if_pos h

/-- A Load leaves memory in canonical form, whatever was there. -/
theorem State.load_wf (image : List Byte) (s : State) : Memory.Wf (s.load image).mem := by
  by_cases h : image.length ≤ Config.memSize
  · rw [State.load_of_fits s h]
    exact Memory.wf_write (Memory.wf_redrawn s.mem) (by omega)
  · rw [State.load_of_too_long s (by omega)]
    exact Memory.wf_redrawn s.mem

end Sys2Proof.Machine
end

