-- ==== Sys2Proof/Laws/Operands.lean ====
section
/-! SUPPORT. What the binary and the unary shape can do (R140, R150). -/

namespace Sys2Proof.Machine

/-- The two slots below `sp` can be popped. -/
abbrev canPopTwo (s : State) : Prop :=
  s.sb.toInt ≤ s.sp.toInt - 8 ∧ 0 ≤ s.sp.toInt - 8 ∧ s.sp.toInt ≤ Config.memSize

theorem canPop_of_canPopTwo {s : State} (h : canPopTwo s) : canPop s :=
  ⟨by omega, by omega, h.2.2⟩

theorem canPop_second {s : State} (h : canPopTwo s) : canPop (s.withSp (s.sp - 4)) := by
  have h1 := toInt_sp_sub (s := s) (by omega)
  refine ⟨?_, ?_, ?_⟩ <;> simp only [State.withSp_sp, State.withSp_sb, h1] <;> omega

theorem sp_sub_sub {s : State} : s.sp - 4 - 4 = s.sp - 8 := by
  rw [BitVec.sub_sub]
  rfl

theorem toNat_sp_sub_eight {s : State} (h : 0 ≤ s.sp.toInt - 8) :
    (s.sp - 8).toNat = s.sp.toNat - 8 := by
  have h1 := toNat_sp_sub (s := s) (by omega)
  have h2 := toInt_sp_sub (s := s) (by omega)
  have h3 := toNat_sp_sub (s := s.withSp (s.sp - 4))
    (by simp only [State.withSp_sp, h2]; omega)
  simp only [State.withSp_sp] at h3
  rw [sp_sub_sub, h1] at h3
  omega

theorem toInt_sp_sub_eight {s : State} (h : 0 ≤ s.sp.toInt - 8) :
    (s.sp - 8).toInt = s.sp.toInt - 8 :=
  toInt_sub_of_small (n := 8) (by omega)

/-- Pushing where something has just been popped stays inside memory and cannot overflow. -/
theorem push32_after_pop {s : State} (v : W32) (h : canPop s) :
    push32 v (s.withSp (s.sp - 4)) = .ok (s.store (s.sp.toNat - 4) v) := by
  have h1 := toInt_sp_sub h.2.1
  have hm : inMemory (s.withSp (s.sp - 4)).sp.toInt Config.slot := by
    show 0 ≤ (s.sp - 4).toInt ∧ (s.sp - 4).toInt + 4 ≤ Config.memSize
    omega
  rw [push32_of_inMemory v _ hm]
  simp only [State.withSp_sp, toNat_sp_sub h.2.1, BitVec.sub_add_cancel]
  rfl

/-- The unary shape with an operand and a result (R150). -/
theorem unary_value {op : W32 → Except FKind W32} {s : State} {r : W32} (h : canPop s)
    (hop : op (s.word (s.sp.toNat - 4)) = .ok r) :
    unary op s = .ok (s.store (s.sp.toNat - 4) r) := by
  simp only [unary, pop32_of_canPop h, hop, push32_after_pop r h]

/-- The unary shape on an empty stack (R150). -/
theorem unary_underflow {op : W32 → Except FKind W32} {s : State}
    (h : s.sp.toInt - 4 < s.sb.toInt) : unary op s = .error .stackUnderflow := by
  simp only [unary, pop32_underflow h]

/-- Whenever the unary shape answers, it had an operand and replaced it by the result. -/
theorem unary_ok {op : W32 → Except FKind W32} {s t : State} (h : unary op s = .ok t) :
    canPop s ∧ ∃ r, op (s.word (s.sp.toNat - 4)) = .ok r ∧
      t = s.store (s.sp.toNat - 4) r := by
  cases hp : pop32 s with
  | error k => simp [unary, hp] at h
  | ok p =>
    obtain ⟨v, s₁⟩ := p
    obtain ⟨hc, rfl, rfl⟩ := pop32_ok hp
    cases hop : op (s.word (s.sp.toNat - 4)) with
    | error k => simp [unary, hp, hop] at h
    | ok r =>
      rw [unary_value hc hop] at h
      exact ⟨hc, r, rfl, by simpa using h.symm⟩

/-- The binary shape with two operands and a result (R140). -/
theorem binary_value {op : W32 → W32 → Except FKind W32} {s : State} {r : W32} (h : canPopTwo s)
    (hop : op (s.word (s.sp.toNat - 8)) (s.word (s.sp.toNat - 4)) = .ok r) :
    binary op s = .ok ((s.store (s.sp.toNat - 8) r).withSp (s.sp - 4)) := by
  have h1 := toNat_sp_sub (s := s) (by omega)
  have hc := canPop_second h
  have hp := pop32_of_canPop hc
  have hpush := push32_after_pop r hc
  simp only [State.withSp_sp, h1, State.word_withSp, Nat.sub_sub, Nat.reduceAdd] at hp hpush
  simp only [binary, pop32_of_canPop (canPop_of_canPopTwo h), hp, hop, hpush]
  rfl

/-- The binary shape with two operands and a fault of its function, after both pops (R140). -/
theorem binary_fault {op : W32 → W32 → Except FKind W32} {s : State} {k : FKind}
    (h : canPopTwo s) (hop : op (s.word (s.sp.toNat - 8)) (s.word (s.sp.toNat - 4)) = .error k) :
    binary op s = .error k := by
  have h1 := toNat_sp_sub (s := s) (by omega)
  have hp := pop32_of_canPop (canPop_second h)
  simp only [State.withSp_sp, h1, State.word_withSp, Nat.sub_sub, Nat.reduceAdd] at hp
  simp only [binary, pop32_of_canPop (canPop_of_canPopTwo h), hp, hop]

/-- The binary shape with fewer than two operands (R140). -/
theorem binary_underflow {op : W32 → W32 → Except FKind W32} {s : State}
    (h : s.sp.toInt - 8 < s.sb.toInt) (h' : 0 ≤ s.sb.toInt) (h'' : s.sp.toInt ≤ Config.memSize) :
    binary op s = .error .stackUnderflow := by
  by_cases h1 : s.sp.toInt - 4 < s.sb.toInt
  · simp only [binary, pop32_underflow h1]
  · have hc : canPop s := ⟨by omega, by omega, h''⟩
    have hu : pop32 (s.withSp (s.sp - 4)) = .error .stackUnderflow := by
      apply pop32_underflow
      simp only [State.withSp_sp, State.withSp_sb, toInt_sp_sub hc.2.1]
      omega
    simp only [binary, pop32_of_canPop hc, hu]

/-- Whenever the binary shape answers, it had two operands and left the result in their place. -/
theorem binary_ok {op : W32 → W32 → Except FKind W32} {s t : State} (h : binary op s = .ok t) :
    canPopTwo s ∧ ∃ r, op (s.word (s.sp.toNat - 8)) (s.word (s.sp.toNat - 4)) = .ok r ∧
      t = (s.store (s.sp.toNat - 8) r).withSp (s.sp - 4) := by
  cases hp : pop32 s with
  | error k => simp [binary, hp] at h
  | ok p =>
    obtain ⟨right, s₁⟩ := p
    obtain ⟨hc, rfl, rfl⟩ := pop32_ok hp
    cases hp2 : pop32 (s.withSp (s.sp - 4)) with
    | error k =>
      simp only [binary, hp, hp2] at h
      cases h
    | ok p2 =>
      obtain ⟨⟨hb, hz, -⟩, -, -⟩ := pop32_ok hp2
      have h1 := toInt_sp_sub hc.2.1
      simp only [State.withSp_sp, State.withSp_sb, h1] at hb hz
      have htwo : canPopTwo s := ⟨by omega, by omega, hc.2.2⟩
      cases hop : op (s.word (s.sp.toNat - 8)) (s.word (s.sp.toNat - 4)) with
      | error k =>
        rw [binary_fault htwo hop] at h
        cases h
      | ok r =>
        rw [binary_value htwo hop] at h
        exact ⟨htwo, r, rfl, by simpa using h.symm⟩

end Sys2Proof.Machine
end

