-- ==== Sys2Proof/Laws/Control.lean ====
section
/-! SUPPORT. What the Operations of PUSH indirect, POP, JZ, CALL, RET and PRINT can do. -/

namespace Sys2Proof.Machine

/-- Whenever the load answers, its word lay inside memory and there was room to push it (R181). -/
theorem loadAndPush_ok {base : BaseReg} {disp : Int} {s t : State}
    (h : loadAndPush base disp s = .ok t) :
    inMemory (resolveEA base disp s) 4 ∧ inMemory s.sp.toInt Config.slot ∧
      t = (s.store s.sp.toNat (s.word (resolveEA base disp s).toNat)).withSp (s.sp + 4) := by
  unfold loadAndPush at h
  split at h
  · cases h
  · rename_i v hv
    obtain ⟨hm, rfl⟩ := readWord_ok hv
    obtain ⟨hsp, ht⟩ := push32_ok h
    exact ⟨hm, hsp, ht⟩

/-- Whenever the store answers, there was a value to pop and its address lay inside memory (R182). -/
theorem popAndStore_ok {base : BaseReg} {disp : Int} {s t : State}
    (h : popAndStore base disp s = .ok t) :
    canPop s ∧ inMemory (resolveEA base disp s) 4 ∧
      t = (s.store (resolveEA base disp s).toNat (s.word (s.sp.toNat - 4))).withSp (s.sp - 4) := by
  unfold popAndStore at h
  split at h
  · cases h
  · rename_i v s₁ hp
    obtain ⟨hc, rfl, rfl⟩ := pop32_ok hp
    obtain ⟨hm, ht⟩ := memWrite_ok h
    exact ⟨hc, hm, ht⟩

/-- Whenever JZ answers, it popped a value and `ip` is the target or has not moved (R191). -/
theorem popAndBranch_ok {target : Half} {s t : State} (h : popAndBranch target s = .ok t) :
    canPop s ∧ t = (s.withSp (s.sp - 4)).withIp
      (if s.word (s.sp.toNat - 4) = 0 then targetAddress target else s.ip) := by
  unfold popAndBranch at h
  split at h
  · cases h
  · rename_i v s₁ hp
    obtain ⟨hc, rfl, rfl⟩ := pop32_ok hp
    refine ⟨hc, ?_⟩
    by_cases hz : s.word (s.sp.toNat - 4) = 0
    · simp only [isZero, hz, beq_self_eq_true, if_true, Except.ok.injEq] at h
      rw [if_pos hz, ← h]
    · simp only [isZero, beq_iff_eq, if_neg hz, Except.ok.injEq] at h
      rw [if_neg hz, ← h]
      rfl

/-- Room for the two slots of a frame. -/
abbrev canPushTwo (s : State) : Prop := 0 ≤ s.sp.toInt ∧ s.sp.toInt + 8 ≤ Config.memSize

/-- The state CALL leaves (R192). -/
def State.framed (target : Half) (s : State) : State :=
  ((((s.store s.sp.toNat s.ip).store (s.sp.toNat + 4) s.fp).withSp (s.sp + 8)).withFp
    (s.sp + 8)).withIp (targetAddress target)

theorem sp_add_add {s : State} : s.sp + 4 + 4 = s.sp + 8 := by
  rw [BitVec.add_assoc]
  rfl

theorem toNat_sp_add {s : State} (h : 0 ≤ s.sp.toInt) (h' : s.sp.toInt ≤ Config.memSize) :
    (s.sp + 4).toInt = s.sp.toInt + 4 ∧ (s.sp + 4).toNat = s.sp.toNat + 4 := by
  have hM : (Config.memSize : Int) = 16384 := rfl
  have h1 : (s.sp + 4).toInt = s.sp.toInt + 4 := toInt_add_of_small (n := 4) h (by omega)
  have h2 := toNat_of_toInt_nonneg h
  have h3 := toNat_of_toInt_nonneg (x := s.sp + 4) (by omega)
  exact ⟨h1, by omega⟩

/-- CALL with room for its frame (R192). -/
theorem enterFrame_of_canPushTwo {target : Half} {s : State} (h : canPushTwo s) :
    enterFrame target s = .ok (s.framed target) := by
  obtain ⟨h1, h2⟩ := toNat_sp_add h.1 (by omega)
  have hp := push32_of_inMemory s.ip s (show inMemory s.sp.toInt 4 by omega)
  have hm : inMemory ((s.store s.sp.toNat s.ip).withSp (s.sp + 4)).sp.toInt Config.slot := by
    show 0 ≤ (s.sp + 4).toInt ∧ (s.sp + 4).toInt + 4 ≤ Config.memSize
    omega
  have hp2 := push32_of_inMemory s.fp _ hm
  simp only [State.withSp_sp, h2, sp_add_add] at hp2
  simp only [enterFrame, wordOfReg_eq, hp, State.withSp_fp, State.store_fp, hp2]
  rfl

/-- CALL without room for its frame, whichever of its pushes overflows (R192). -/
theorem enterFrame_overflow {target : Half} {s : State} (h : 0 ≤ s.sp.toInt)
    (h' : Config.memSize < s.sp.toInt + 8) : enterFrame target s = .error .stackOverflow := by
  by_cases hm : inMemory s.sp.toInt Config.slot
  · have h4 : s.sp.toInt + 4 ≤ Config.memSize := hm.2
    obtain ⟨h1, -⟩ := toNat_sp_add h (by omega)
    have hm2 : ¬ inMemory ((s.store s.sp.toNat s.ip).withSp (s.sp + 4)).sp.toInt Config.slot := by
      show ¬ (0 ≤ (s.sp + 4).toInt ∧ (s.sp + 4).toInt + 4 ≤ Config.memSize)
      omega
    simp only [enterFrame, wordOfReg_eq, push32_of_inMemory s.ip s hm, push32_of_not_inMemory _ _ hm2]
  · simp only [enterFrame, wordOfReg_eq, push32_of_not_inMemory s.ip s hm]

/-- Whenever CALL answers, there was room for its frame (R192). -/
theorem enterFrame_ok {target : Half} {s t : State} (h : enterFrame target s = .ok t) :
    canPushTwo s ∧ t = s.framed target := by
  have h0 : 0 ≤ s.sp.toInt := by
    unfold enterFrame at h
    split at h
    · cases h
    · rename_i s₁ hp
      exact (push32_ok hp).1.1
  by_cases h8 : s.sp.toInt + 8 ≤ Config.memSize
  · rw [enterFrame_of_canPushTwo ⟨h0, h8⟩] at h
    exact ⟨⟨h0, h8⟩, by simpa using h.symm⟩
  · rw [enterFrame_overflow h0 (by omega)] at h
    cases h

/-- The frame below `fp` can be taken down: its two saved slots can be popped. -/
abbrev canLeave (s : State) : Prop := canPop s ∧ canPopTwo (s.withSp s.fp)

/-- The state RET leaves (R193). -/
def State.unframed (s : State) : State :=
  (((s.store (s.fp.toNat - 8) (s.word (s.sp.toNat - 4))).withSp (s.fp - 4)).withFp
    (s.word (s.fp.toNat - 4))).withIp (s.word (s.fp.toNat - 8))

/-- RET's Operation, registers and stack values being equally wide on this hardware (R193). -/
theorem leaveFrame_eq (s : State) : leaveFrame s =
    match pop32 s with
    | .error k => .error k
    | .ok (rv, s₁) =>
      match pop32 (s₁.withSp s₁.fp) with
      | .error k => .error k
      | .ok (savedFp, s₂) =>
        match pop32 (s₂.withFp savedFp) with
        | .error k => .error k
        | .ok (savedIp, s₃) => push32 rv (s₃.withIp savedIp) := by
  have h : regOfWord = id := funext regOfWord_eq
  rw [leaveFrame, h]
  rfl

/-- RET with a value to return and a frame to take down (R193). -/
theorem leaveFrame_of_canLeave {s : State} (h : canLeave s) : leaveFrame s = .ok s.unframed := by
  obtain ⟨hc, h2⟩ := h
  have hp2 := pop32_of_canPop (canPop_of_canPopTwo h2)
  have hs2 := canPop_second h2
  have hf := toNat_sp_sub (s := s.withSp s.fp) (by omega)
  simp only [State.withSp_sp] at hf
  have hc3 : canPop (((s.withSp s.fp).withSp (s.fp - 4)).withFp (s.word (s.fp.toNat - 4))) := hs2
  have hp3 := pop32_of_canPop hc3
  have hpush := push32_after_pop (s.word (s.sp.toNat - 4)) hs2
  simp only [State.withSp_sp, State.word_withSp, hf, Nat.sub_sub, Nat.reduceAdd, State.withFp_sp,
    State.word_withFp] at hp2 hp3 hpush
  have hpush' : push32 (s.word (s.sp.toNat - 4))
      (((((s.withSp s.fp).withSp (s.fp - 4)).withFp (s.word (s.fp.toNat - 4))).withSp
        (s.fp - 4 - 4)).withIp (s.word (s.fp.toNat - 8))) = .ok s.unframed := by
    have hm : inMemory (s.fp - 4 - 4).toInt Config.slot := by
      have := toInt_sp_sub hs2.2.1
      simp only [State.withSp_sp] at this
      have h5 := hs2.2.2
      have h6 := hs2.2.1
      simp only [State.withSp_sp] at h5 h6
      rw [this]
      show 0 ≤ (s.fp - 4).toInt - 4 ∧ (s.fp - 4).toInt - 4 + 4 ≤ Config.memSize
      omega
    rw [push32_of_inMemory _ _ hm]
    have h8 : (s.fp - 4 - 4).toNat = s.fp.toNat - 8 := by
      have := toNat_sp_sub hs2.2.1
      simp only [State.withSp_sp, hf] at this
      omega
    simp only [State.withIp_sp, State.withSp_sp, h8, BitVec.sub_add_cancel]
    rfl
  simp only [leaveFrame_eq, pop32_of_canPop hc, State.withSp_fp]
  change (match pop32 (s.withSp s.fp) with
    | .error k => Except.error k
    | .ok (savedFp, s₂) =>
      match pop32 (s₂.withFp savedFp) with
      | .error k => .error k
      | .ok (savedIp, s₃) => push32 (s.word (s.sp.toNat - 4)) (s₃.withIp savedIp)) = _
  simp only [hp2, hp3, hpush']

/-- Whenever RET answers, it had a value to return and a frame to take down (R193). -/
theorem leaveFrame_ok {s t : State} (h : leaveFrame s = .ok t) : canLeave s ∧ t = s.unframed := by
  have hl : canLeave s := by
    unfold leaveFrame at h
    split at h
    · cases h
    · rename_i rv s₁ hp
      obtain ⟨hc, -, rfl⟩ := pop32_ok hp
      split at h
      · cases h
      · rename_i fp' s₂ hp2
        obtain ⟨hc2, -, rfl⟩ := pop32_ok hp2
        split at h
        · cases h
        · rename_i ip' s₃ hp3
          obtain ⟨hc3, -, -⟩ := pop32_ok hp3
          have h4 := toInt_sp_sub hc2.2.1
          obtain ⟨a1, a2, a3⟩ := hc2
          obtain ⟨b1, b2, b3⟩ := hc3
          simp only [State.withSp_sp, State.withSp_fp, State.withFp_sp, State.withFp_sb,
            State.withSp_sb] at a1 a2 a3 b1 b2 b3 h4
          refine ⟨hc, ?_, ?_, ?_⟩ <;> simp only [State.withSp_sp, State.withSp_sb] <;> omega
  rw [leaveFrame_of_canLeave hl] at h
  exact ⟨hl, by simpa using h.symm⟩

/-- Whenever PRINT answers, it popped the value it output (R203). -/
theorem popAndOutput_ok {s t : State} (h : popAndOutput s = .ok t) :
    canPop s ∧
      t = (s.withSp (s.sp - 4)).withOutput (s.output ++ [s.word (s.sp.toNat - 4)]) := by
  unfold popAndOutput at h
  split at h
  · cases h
  · rename_i v s₁ hp
    obtain ⟨hc, rfl, rfl⟩ := pop32_ok hp
    exact ⟨hc, by simpa using h.symm⟩

end Sys2Proof.Machine
end

