-- ==== Sys2Proof/Laws/Encode.lean ====
section
/-! SUPPORT. The pieces of an encoding: the bytes of an operand, and the fields of an opcode byte read
back (R80 to R89). -/

namespace Sys2Proof

/-- A 32-bit operand, byte by byte (R53, R80). -/
theorem bytesOfValue_word (v : W32) : bytesOfValue Config.dataEndian 4 v.toNat =
    [v.extractLsb' 0 8, v.extractLsb' 8 8, v.extractLsb' 16 8, v.extractLsb' 24 8] := by
  have hv := v.isLt
  simp only [bytesOfValue, littleBytes, List.cons.injEq, and_true]
  refine ⟨?_, ?_, ?_, ?_⟩ <;> apply BitVec.eq_of_toNat_eq <;>
    simp [Nat.shiftRight_eq_div_pow] <;> omega

/-- A 16-bit operand, byte by byte (R54, R80). -/
theorem bytesOfValue_half (w : Half) : bytesOfValue Config.dataEndian 2 w.toNat =
    [w.extractLsb' 0 8, w.extractLsb' 8 8] := by
  have hw := w.isLt
  simp only [bytesOfValue, littleBytes, List.cons.injEq, and_true]
  refine ⟨?_, ?_⟩ <;> apply BitVec.eq_of_toNat_eq <;> simp [Nat.shiftRight_eq_div_pow]

/-- The packed operand as R86 and R105 give it. -/
theorem toNat_packedOperand (base : BaseReg) (disp : Int) :
    (packedOperand base disp).toNat
      = 16384 * (Config.tag base).toNat + (disp % 16384).toNat := by
  have h : (BitVec.ofInt 14 disp).toNat = (disp % 16384).toNat := by simp [BitVec.toNat_ofInt]
  have h2 := (BitVec.ofInt 14 disp).isLt
  rw [packedOperand, BitVec.toNat_append, ← Nat.shiftLeft_add_eq_or_of_lt h2, h, Nat.shiftLeft_eq]
  omega

/-- A 32-bit operand read back from its own bytes (R53). -/
@[simp] theorem value_of_word_bytes (v : W32) :
    BitVec.ofNat Config.wordBits (valueOfBytes Config.dataEndian
      (bytesOfValue Config.dataEndian Config.wordSize v.toNat)) = v := by
  show BitVec.ofNat 32 (valueOfBytes .little (littleBytes 4 v.toNat)) = v
  rw [valueOfBytes_littleBytes, Nat.mod_eq_of_lt (b := 256 ^ 4) (word_lt v), BitVec.ofNat_toNat, BitVec.setWidth_eq]

/-- A 16-bit operand read back from its own bytes (R54). -/
@[simp] theorem value_of_half_bytes (w : Half) :
    BitVec.ofNat Config.operandBits (valueOfBytes Config.dataEndian
      (bytesOfValue Config.dataEndian Config.operandSize w.toNat)) = w := by
  show BitVec.ofNat 16 (valueOfBytes .little (littleBytes 2 w.toNat)) = w
  rw [valueOfBytes_littleBytes, Nat.mod_eq_of_lt (b := 256 ^ 2) (half_lt w), BitVec.ofNat_toNat, BitVec.setWidth_eq]

/-- The tag of a packed operand put together from its fields (R86). -/
@[simp] theorem tag_packedOperand (base : BaseReg) (disp : Int) :
    (packedOperand base disp).extractLsb' Config.dispBits Config.tagBits = Config.tag base := by
  apply BitVec.eq_of_getLsbD_eq
  intro i hi
  rw [BitVec.getLsbD_extractLsb', packedOperand, BitVec.getLsbD_append]
  simp [hi]

/-- The displacement of a packed operand put together from its fields (R86). -/
@[simp] theorem disp_packedOperand (base : BaseReg) (disp : Int) :
    (packedOperand base disp).extractLsb' 0 Config.dispBits = BitVec.ofInt Config.dispBits disp := by
  apply BitVec.eq_of_getLsbD_eq
  intro i hi
  replace hi : i < 14 := hi
  rw [BitVec.getLsbD_extractLsb', packedOperand, BitVec.getLsbD_append]
  simp [hi]

@[simp] theorem opcodeByte_pushImm (imm : W32) : opcodeByte (.pushImm imm) = 0x58 :=
  (by decide : Config.mode .imm ++ Config.opc .push = (0x58 : Byte))
@[simp] theorem opcodeByte_pushInd (base : BaseReg) (disp : Int) : opcodeByte (.pushInd base disp) = 0x98 :=
  (by decide : Config.mode .packed ++ Config.opc .push = (0x98 : Byte))
@[simp] theorem opcodeByte_pop (base : BaseReg) (disp : Int) : opcodeByte (.pop base disp) = 0x99 :=
  (by decide : Config.mode .packed ++ Config.opc .pop = (0x99 : Byte))
@[simp] theorem opcodeByte_call (target : Half) : opcodeByte (.call target) = 0x9A :=
  (by decide : Config.mode .packed ++ Config.opc .call = (0x9A : Byte))
@[simp] theorem opcodeByte_jump (target : Half) : opcodeByte (.jump target) = 0x9B :=
  (by decide : Config.mode .packed ++ Config.opc .jump = (0x9B : Byte))
@[simp] theorem opcodeByte_jz (target : Half) : opcodeByte (.jz target) = 0x9C :=
  (by decide : Config.mode .packed ++ Config.opc .jz = (0x9C : Byte))

theorem formatOfMode_mode (f : Format) : formatOfMode (Config.mode f) = some f := by
  cases f <;> decide

theorem mnemonicOfOpc_opc (m : Mnemonic) : mnemonicOfOpc (Config.opc m) = some m := by
  cases m <;> decide

theorem baseOfTag_tag (r : BaseReg) : baseOfTag (Config.tag r) = some r := by
  cases r <;> decide

/-- No two mnemonics share an operation code (R89). -/
theorem opc_injective {m n : Mnemonic} (h : Config.opc m = Config.opc n) : m = n := by
  have := congrArg mnemonicOfOpc h
  rw [mnemonicOfOpc_opc, mnemonicOfOpc_opc] at this
  exact Option.some.inj this

@[simp] theorem modeField_opcodeByte (i : Instr) : modeField (opcodeByte i) = Config.mode i.format :=
  modeField_append _ _
@[simp] theorem opcField_opcodeByte (i : Instr) : opcField (opcodeByte i) = Config.opc i.mnemonic :=
  opcField_append _ _

/-- The row an instruction's opcode byte selects is its own. -/
theorem decodeOpcode_opcodeByte (i : Instr) :
    ∃ sh, shapeOf i.mnemonic i.format = some sh ∧ decodeOpcode (opcodeByte i) = .ok sh ∧
      sh.format = i.format := by
  have h : ∀ sh, shapeOf i.mnemonic i.format = some sh → decodeOpcode (opcodeByte i) = .ok sh := by
    intro sh hs
    simp only [decodeOpcode, modeField_opcodeByte, opcField_opcodeByte, formatOfMode_mode,
      mnemonicOfOpc_opc, hs]
  cases i <;> exact ⟨_, rfl, h _ rfl, rfl⟩

end Sys2Proof
end

