-- ==== Sys2Proof/Laws/Exec.lean ====
section
/-! SUPPORT. Everything an instruction can do, said once: it is completed, with the state after it in one
of fourteen forms, or it raised a fault. -/

namespace Sys2Proof.Machine

/-- The instructions of the binary shape (R140, R160). -/
def isBinary : Instr → Bool
  | .add | .sub | .mul | .div | .mod | .and | .or | .eq | .ne | .lt | .le | .gt | .ge => true
  | .nop | .ret | .halt | .neg | .not | .input | .print | .shl | .shr | .rol | .ror => false
  | .pushImm _ | .pushInd _ _ | .pop _ _ | .call _ | .jump _ | .jz _ => false

/-- The instructions of the unary shape (R150). -/
def isUnary : Instr → Bool
  | .neg | .not | .shl | .shr | .rol | .ror => true
  | .add | .sub | .mul | .div | .mod | .and | .or | .eq | .ne | .lt | .le | .gt | .ge => false
  | .nop | .ret | .halt | .input | .print => false
  | .pushImm _ | .pushInd _ _ | .pop _ _ | .call _ | .jump _ | .jz _ => false

/-- An instruction begun in `s` is completed in `t`. -/
inductive Completes : Instr → State → State → Prop where
  | binary {i : Instr} {s : State} (r : W32) (hi : isBinary i = true) (h : canPopTwo s) :
      Completes i s (((s.fetched .basic).store (s.sp.toNat - 8) r).withSp (s.sp - 4))
  | unary {i : Instr} {s : State} (r : W32) (hi : isUnary i = true) (h : canPop s) :
      Completes i s ((s.fetched .basic).store (s.sp.toNat - 4) r)
  | pushImm {s : State} (imm : W32) (h : inMemory s.sp.toInt 4) :
      Completes (.pushImm imm) s (((s.fetched .imm).store s.sp.toNat imm).withSp (s.sp + 4))
  | pushInd {s : State} (base : BaseReg) (disp : Int) (v : W32) (h : inMemory s.sp.toInt 4) :
      Completes (.pushInd base disp) s
        (((s.fetched .packed).store s.sp.toNat v).withSp (s.sp + 4))
  | pop {s : State} (base : BaseReg) (disp : Int) (v : W32) (h : canPop s)
      (hm : inMemory (resolveEA base disp (s.fetched .packed)) 4) :
      Completes (.pop base disp) s
        (((s.fetched .packed).store (resolveEA base disp (s.fetched .packed)).toNat v).withSp
          (s.sp - 4))
  | call {s : State} (target : Half) (h : canPushTwo s) :
      Completes (.call target) s ((s.fetched .packed).framed target)
  | ret {s : State} (h : canLeave s) : Completes .ret s (s.fetched .basic).unframed
  | jump {s : State} (target : Half) : Completes (.jump target) s (s.withIp (targetAddress target))
  | jz {s : State} (target : Half) (ip : W32) (h : canPop s) :
      Completes (.jz target) s ((s.withSp (s.sp - 4)).withIp ip)
  | nop {s : State} : Completes .nop s (s.fetched .basic)
  | halt {s : State} : Completes .halt s ((s.fetched .basic).withStatus .halted)
  | inputWait {s : State} (h : s.input = []) : Completes .input s s
  | input {s : State} (v : W32) (rest : List W32) (h : s.input = v :: rest)
      (hm : inMemory s.sp.toInt 4) :
      Completes .input s
        ((((s.fetched .basic).withInput rest).store s.sp.toNat v).withSp (s.sp + 4))
  | print {s : State} (h : canPop s) :
      Completes .print s (((s.fetched .basic).withSp (s.sp - 4)).withOutput
        (s.output ++ [s.word (s.sp.toNat - 4)]))

/-- An instruction begun in `s` raised a fault, which left `t`; an INPUT may have taken its value. -/
def RaisedIn (i : Instr) (s t : State) : Prop :=
  ∃ k inp, t = raise k s.ip (s.withInput inp) ∧
    (inp = s.input ∨ (i = .input ∧ inp = s.input.tail))

theorem raisedIn_of_error {i : Instr} {s : State} {k : FKind} :
    RaisedIn i s (raise k s.ip s) := ⟨k, s.input, rfl, .inl rfl⟩

theorem binaryInstr_next {i : Instr} {op : W32 → W32 → Except FKind W32} {s t : State}
    (hi : isBinary i = true) (h : binaryInstr op s = .next t) :
    RaisedIn i s t ∨ Completes i s t := by
  rcases complete_next h with h | ⟨k, -, rfl⟩
  · obtain ⟨hc, r, -, rfl⟩ := binary_ok h
    exact .inr (.binary r hi hc)
  · exact .inl raisedIn_of_error

theorem unaryInstr_next {i : Instr} {op : W32 → Except FKind W32} {s t : State}
    (hi : isUnary i = true) (h : unaryInstr op s = .next t) :
    RaisedIn i s t ∨ Completes i s t := by
  rcases complete_next h with h | ⟨k, -, rfl⟩
  · obtain ⟨hc, r, -, rfl⟩ := unary_ok h
    exact .inr (.unary r hi hc)
  · exact .inl raisedIn_of_error

theorem execInput_next {s t : State} (h : execInput s = .next t) :
    RaisedIn .input s t ∨ Completes .input s t := by
  unfold execInput at h
  split at h
  · rename_i hi
    cases h
    exact .inr (.inputWait hi)
  · rename_i v rest hi
    split at h
    · rename_i s' hp
      cases h
      obtain ⟨hm, rfl⟩ := push32_ok hp
      exact .inr (.input v rest hi hm)
    · rename_i k _
      cases h
      refine .inl ⟨k, inputAfterFault s rest, rfl, ?_⟩
      cases hc : Config.inputTakenOnFault s.mem.draw
      · exact .inl (by simp [inputAfterFault, hc])
      · exact .inr ⟨rfl, by simp [inputAfterFault, hc, hi]⟩

/-- An instruction that gives a next state was completed or raised a fault. -/
theorem exec_next {i : Instr} {s t : State} (h : exec i s = .next t) :
    RaisedIn i s t ∨ Completes i s t := by
  cases i with
  | nop => cases h; exact .inr .nop
  | halt => cases h; exact .inr .halt
  | jump target => cases h; exact .inr (.jump target)
  | add => exact binaryInstr_next rfl h
  | sub => exact binaryInstr_next rfl h
  | mul => exact binaryInstr_next rfl h
  | div => exact binaryInstr_next rfl h
  | mod => exact binaryInstr_next rfl h
  | and => exact binaryInstr_next rfl h
  | or => exact binaryInstr_next rfl h
  | eq => exact binaryInstr_next rfl h
  | ne => exact binaryInstr_next rfl h
  | lt => exact binaryInstr_next rfl h
  | le => exact binaryInstr_next rfl h
  | gt => exact binaryInstr_next rfl h
  | ge => exact binaryInstr_next rfl h
  | neg => exact unaryInstr_next rfl h
  | not => exact unaryInstr_next rfl h
  | shl => exact unaryInstr_next rfl h
  | shr => exact unaryInstr_next rfl h
  | rol => exact unaryInstr_next rfl h
  | ror => exact unaryInstr_next rfl h
  | input => exact execInput_next h
  | ret =>
    rcases complete_next h with h | ⟨k, -, rfl⟩
    · obtain ⟨hl, rfl⟩ := leaveFrame_ok h
      exact .inr (.ret hl)
    · exact .inl raisedIn_of_error
  | print =>
    rcases complete_next h with h | ⟨k, -, rfl⟩
    · obtain ⟨hc, rfl⟩ := popAndOutput_ok h
      exact .inr (.print hc)
    · exact .inl raisedIn_of_error
  | pushImm imm =>
    rcases complete_next h with h | ⟨k, -, rfl⟩
    · obtain ⟨hm, rfl⟩ := push32_ok h
      exact .inr (.pushImm imm hm)
    · exact .inl raisedIn_of_error
  | pushInd base disp =>
    rcases complete_next h with h | ⟨k, -, rfl⟩
    · obtain ⟨-, hm, rfl⟩ := loadAndPush_ok h
      exact .inr (.pushInd base disp _ hm)
    · exact .inl raisedIn_of_error
  | pop base disp =>
    rcases complete_next h with h | ⟨k, -, rfl⟩
    · obtain ⟨hc, hm, rfl⟩ := popAndStore_ok h
      exact .inr (.pop base disp _ hc hm)
    · exact .inl raisedIn_of_error
  | call target =>
    rcases complete_next h with h | ⟨k, -, rfl⟩
    · obtain ⟨hc, rfl⟩ := enterFrame_ok h
      exact .inr (.call target hc)
    · exact .inl raisedIn_of_error
  | jz target =>
    rcases complete_next h with h | ⟨k, -, rfl⟩
    · obtain ⟨hc, rfl⟩ := popAndBranch_ok h
      exact .inr (.jz target _ hc)
    · exact .inl raisedIn_of_error

end Sys2Proof.Machine
end

