-- ==== Sys2Proof/Laws/PerInstr.lean ====
section
/-! SUPPORT. Facts about every instruction as syntax, one lemma per constructor. -/

namespace Sys2Proof.Laws.EncodedLength

/-- The encoded bytes are as many as the format's length, and the mode tag of the first byte is the
format's, so the first byte alone tells the length (R80, R94). -/
def Statement (i : Instr) : Prop :=
  (encode i).length = i.length ∧ (encode i).head?.map modeField = some (Config.mode i.format)

theorem nop : Statement .nop := ⟨rfl, rfl⟩
theorem ret : Statement .ret := ⟨rfl, rfl⟩
theorem halt : Statement .halt := ⟨rfl, rfl⟩
theorem add : Statement .add := ⟨rfl, rfl⟩
theorem sub : Statement .sub := ⟨rfl, rfl⟩
theorem mul : Statement .mul := ⟨rfl, rfl⟩
theorem div : Statement .div := ⟨rfl, rfl⟩
theorem mod : Statement .mod := ⟨rfl, rfl⟩
theorem neg : Statement .neg := ⟨rfl, rfl⟩
theorem and : Statement .and := ⟨rfl, rfl⟩
theorem or : Statement .or := ⟨rfl, rfl⟩
theorem not : Statement .not := ⟨rfl, rfl⟩
theorem eq : Statement .eq := ⟨rfl, rfl⟩
theorem ne : Statement .ne := ⟨rfl, rfl⟩
theorem lt : Statement .lt := ⟨rfl, rfl⟩
theorem le : Statement .le := ⟨rfl, rfl⟩
theorem gt : Statement .gt := ⟨rfl, rfl⟩
theorem ge : Statement .ge := ⟨rfl, rfl⟩
theorem input : Statement .input := ⟨rfl, rfl⟩
theorem print : Statement .print := ⟨rfl, rfl⟩
theorem shl : Statement .shl := ⟨rfl, rfl⟩
theorem shr : Statement .shr := ⟨rfl, rfl⟩
theorem rol : Statement .rol := ⟨rfl, rfl⟩
theorem ror : Statement .ror := ⟨rfl, rfl⟩
theorem pushImm (imm : W32) : Statement (.pushImm imm) :=
  ⟨rfl, congrArg some (modeField_append _ _)⟩
theorem pushInd (base : BaseReg) (disp : Int) : Statement (.pushInd base disp) :=
  ⟨rfl, congrArg some (modeField_append _ _)⟩
theorem pop (base : BaseReg) (disp : Int) : Statement (.pop base disp) :=
  ⟨rfl, congrArg some (modeField_append _ _)⟩
theorem call (target : Half) : Statement (.call target) :=
  ⟨rfl, congrArg some (modeField_append _ _)⟩
theorem jump (target : Half) : Statement (.jump target) :=
  ⟨rfl, congrArg some (modeField_append _ _)⟩
theorem jz (target : Half) : Statement (.jz target) :=
  ⟨rfl, congrArg some (modeField_append _ _)⟩

end Sys2Proof.Laws.EncodedLength
end

