-- ==== Sys2Proof/Laws/Shift.lean ====
section
/-! SUPPORT. The shifts and rotates, given bit slices by the rules, as the library's operations
(R170 to R173). -/

namespace Sys2Proof.Machine

theorem shlOp_eq (v : W32) : shlOp v = .ok (v <<< 1) := by
  refine congrArg Except.ok (BitVec.eq_of_toNat_eq ?_)
  rw [BitVec.toNat_append, BitVec.toNat_shiftLeft, BitVec.extractLsb'_toNat, Nat.shiftLeft_eq,
    Nat.shiftLeft_eq]
  have := word_lt v
  simp
  omega

theorem shrOp_eq (v : W32) : shrOp v = .ok (v >>> 1) := by
  refine congrArg Except.ok (BitVec.eq_of_toNat_eq ?_)
  rw [BitVec.toNat_append, BitVec.toNat_ushiftRight, BitVec.extractLsb'_toNat, Nat.shiftLeft_eq,
    Nat.shiftRight_eq_div_pow]
  have := word_lt v
  simp
  omega

theorem rolOp_eq (v : W32) : rolOp v = .ok (v.rotateLeft 1) := by
  refine congrArg Except.ok (BitVec.eq_of_toNat_eq ?_)
  have hr : v.rotateLeft 1 = v <<< 1 ||| v >>> 31 := rfl
  have hv := word_lt v
  have h1 : (v <<< 1).toNat = 2 * (v.toNat % 2 ^ 31) := by
    rw [BitVec.toNat_shiftLeft, Nat.shiftLeft_eq]
    show v.toNat * 2 ^ 1 % 4294967296 = _
    omega
  have h2 : (v >>> 31).toNat = v.toNat / 2 ^ 31 := by
    rw [BitVec.toNat_ushiftRight, Nat.shiftRight_eq_div_pow]
  have h3 : v.toNat / 2 ^ 31 % 2 ^ 1 = v.toNat / 2 ^ 31 := Nat.mod_eq_of_lt (by omega)
  rw [hr, BitVec.toNat_or, h1, h2, BitVec.toNat_append, BitVec.extractLsb'_toNat,
    BitVec.extractLsb'_toNat, Nat.shiftLeft_eq, Nat.shiftRight_eq_div_pow,
    Nat.shiftRight_eq_div_pow, show Config.wordBits - 1 = 31 from rfl, h3]
  simp [Nat.mul_comm]

theorem rorOp_eq (v : W32) : rorOp v = .ok (v.rotateRight 1) := by
  refine congrArg Except.ok (BitVec.eq_of_toNat_eq ?_)
  have hr : v.rotateRight 1 = v >>> 1 ||| v <<< 31 := rfl
  have hv := word_lt v
  have h1 : (v <<< 31).toNat = v.toNat % 2 * 2 ^ 31 := by
    rw [BitVec.toNat_shiftLeft, Nat.shiftLeft_eq]
    show v.toNat * 2 ^ 31 % 4294967296 = _
    omega
  have h2 : (v >>> 1).toNat = v.toNat / 2 := by
    rw [BitVec.toNat_ushiftRight, Nat.shiftRight_eq_div_pow]
  have h3 : v.toNat / 2 ^ 1 % 2 ^ 31 = v.toNat / 2 := Nat.mod_eq_of_lt (by omega)
  rw [hr, BitVec.toNat_or, h1, h2, BitVec.toNat_append, BitVec.extractLsb'_toNat,
    BitVec.extractLsb'_toNat, Nat.shiftLeft_eq, Nat.shiftRight_eq_div_pow,
    Nat.shiftRight_eq_div_pow, show Config.wordBits - 1 = 31 from rfl, h3]
  simp [Nat.or_comm]

end Sys2Proof.Machine
end

