-- ==== Sys2Proof/Laws/Step.lean ====
section
/-! SUPPORT. The step and the fetch: when they answer, and with what. -/

namespace Sys2Proof.Machine

/-- A running unit whose fetch faults records that fault (R121 to R123). -/
theorem step_of_fetch_error {s : State} {k : FKind} (hs : s.status = .running)
    (hf : fetch s = .error k) : step s = .next (raise k s.ip s) := by
  simp only [step, hs, hf, complete_error]

/-- A running unit whose fetch gives an instruction executes it (R124). -/
theorem step_of_fetch_ok {s : State} {i : Instr} (hs : s.status = .running)
    (hf : fetch s = .ok i) : step s = exec i s := by
  simp only [step, hs, hf]

/-- Everything a step to a next state can be: the unit was running, and either the fetch faulted or the
fetched instruction was executed. -/
theorem step_next {s t : State} (h : step s = .next t) :
    s.status = .running ∧
      ((∃ k, fetch s = .error k ∧ t = raise k s.ip s) ∨
        ∃ i, fetch s = .ok i ∧ exec i s = .next t) := by
  cases hs : s.status with
  | idle => simp [step, hs] at h
  | halted => simp [step, hs] at h
  | faulted => simp [step, hs] at h
  | running =>
    refine ⟨rfl, ?_⟩
    cases hf : fetch s with
    | error k =>
      rw [step_of_fetch_error hs hf] at h
      exact .inl ⟨k, rfl, by simpa using h.symm⟩
    | ok i =>
      rw [step_of_fetch_ok hs hf] at h
      exact .inr ⟨i, rfl, h⟩

/-- The one byte at `ip`, read as the opcode byte. -/
theorem opcode_read (s : State) (a : Nat) :
    BitVec.ofNat Config.byteBits (valueOfBytes Config.dataEndian (s.bytes a 1)) = s.byte a := by
  simp [State.bytes, valueOfBytes]

/-- The fetch, with its reads resolved: outside memory, no row, operand outside memory, or the operand
decoded (R121 to R123, R221). -/
theorem fetch_cases (s : State) :
    fetch s =
      if inMemory s.ip.toInt 1 then
        match decodeOpcode (s.byte s.ip.toNat) with
        | .error _ => .error .decodeFault
        | .ok sh =>
          if inMemory (s.ip.toInt + 1) sh.format.operandLength then
            match decodeOperand sh (s.bytes (s.ip.toNat + 1) sh.format.operandLength) with
            | .error _ => .error .decodeFault
            | .ok i => .ok i
          else .error .fetchBounds
      else .error .fetchBounds := by
  by_cases h : inMemory s.ip.toInt 1
  · have hn : (s.ip.toInt + 1).toNat = s.ip.toNat + 1 := by
      have := toNat_of_toInt_nonneg h.1
      omega
    rw [if_pos h, fetch, memRead_of_inMemory _ _ h, toInt_toNat_of_nonneg h.1]
    simp only [opcode_read]
    cases decodeOpcode (s.byte s.ip.toNat) with
    | error e => rfl
    | ok sh =>
      by_cases h2 : inMemory (s.ip.toInt + 1) sh.format.operandLength
      · cases hd : decodeOperand sh (s.bytes (s.ip.toNat + 1) sh.format.operandLength) <;>
          simp only [memRead_of_inMemory _ _ h2, if_pos h2, hn, hd]
      · simp only [memRead_of_not_inMemory _ _ h2, if_neg h2, Access.fault]
  · rw [if_neg h, fetch, memRead_of_not_inMemory _ _ h, Access.fault]

/-- The faults a fetch can raise. -/
theorem fetch_error {s : State} {k : FKind} (h : fetch s = .error k) :
    k = .fetchBounds ∨ k = .decodeFault := by
  rw [fetch_cases] at h
  split at h
  · split at h
    · exact .inr (by simpa using h.symm)
    · split at h
      · split at h
        · exact .inr (by simpa using h.symm)
        · cases h
      · exact .inl (by simpa using h.symm)
  · exact .inl (by simpa using h.symm)

/-- A decoded instruction has the format of the row its opcode byte selects. -/
theorem decodeOperand_format {sh : Shape} {bs : List Byte} {i : Instr}
    (h : decodeOperand sh bs = .ok i)
    (hsh : ∃ m f, shapeOf m f = some sh) : i.format = sh.format := by
  obtain ⟨m, f, hsh⟩ := hsh
  cases m <;> cases f <;> simp only [shapeOf, Option.some.injEq, reduceCtorEq] at hsh <;>
    subst hsh <;> simp only [decodeOperand] at h <;>
    first
      | (cases h; rfl)
      | (split at h <;> cases h; rfl)

/-- The rows an opcode byte can select. -/
theorem decodeOpcode_ok {b : Byte} {sh : Shape} (h : decodeOpcode b = .ok sh) :
    ∃ m f, formatOfMode (modeField b) = some f ∧ mnemonicOfOpc (opcField b) = some m ∧
      shapeOf m f = some sh := by
  unfold decodeOpcode at h
  split at h
  · cases h
  · rename_i f hf
    split at h
    · cases h
    · rename_i m hm
      split at h
      · cases h
      · rename_i sh' hs
        cases h
        exact ⟨m, f, hf, hm, hs⟩

end Sys2Proof.Machine
end

