-- ==== Sys2Proof/Tests/Slice0.lean ====
section
/-! SUPPORT. Tests. Expected values come from `spec/95_test_vectors.md` or by hand from the rule a test
names. The second half shows, for every statement with hypotheses, concrete values that meet them. -/

namespace Sys2Proof.Tests

open Sys2Proof.Machine Sys2Proof.Safety

/-! ### Helpers -/

/-- The state after Load of an image, with values pushed on the stack, the last on top. -/
def machine (image : List Byte) (values : List W32) : State :=
  values.foldl (fun s v => match push32 v s with | .ok t => t | .error _ => s)
    (State.reset.load image)

/-- The next state of an outcome; the state it started from if there is none. -/
def nextOf (s : State) : Host.Outcome State Fault Refusal → State
  | .next t => t
  | .fault _ => s
  | .refused _ => s

/-- One step of the unit. -/
def oneStep (s : State) : State := nextOf s (step s)

/-- The word on top of the stack. -/
def top (s : State) : W32 := s.word (s.sp.toNat - 4)

/-- What one binary instruction leaves, given left and right: `ip`, `sp` and the top of stack. The image
is one byte, so `sb` is 1 and the operands stand at 1 and 5. -/
def binaryStep (b : Byte) (l r : W32) : W32 × W32 × W32 :=
  let t := oneStep (machine [b] [l, r])
  (t.ip, t.sp, top t)

/-- The same of a unary instruction. -/
def unaryStep (b : Byte) (v : W32) : W32 × W32 × W32 :=
  let t := oneStep (machine [b] [v])
  (t.ip, t.sp, top t)

/-- The fault record a step leaves. -/
def faultStep (s : State) : Option (FKind × W32) := (oneStep s).faultRecord

/-! ### Well-formedness: an ill-formed term for each check -/

theorem test_wellFormed_push_disp_high : (Instr.pushInd .sp 8192).wellFormed = false := by decide
theorem test_wellFormed_push_disp_low : (Instr.pushInd .ip (-8193)).wellFormed = false := by decide
theorem test_wellFormed_pop_disp_high : (Instr.pop .fp 8192).wellFormed = false := by decide
theorem test_wellFormed_pop_disp_low : (Instr.pop .sp (-8193)).wellFormed = false := by decide
theorem test_wellFormed_disp_edges :
    (Instr.pushInd .fp 8191).wellFormed = true ∧ (Instr.pop .fp (-8192)).wellFormed = true := by decide

/-! ### Decoding: a word of every constructor, from R81, R82, R86, R87 and R89 -/

/-- mode 00 and operation codes 0x00 to 0x02, 0x12, 0x13 -/
theorem test_decode_system :
    decode [0b00000000] = .ok (.nop, []) ∧ decode [0b00000001] = .ok (.ret, []) ∧
    decode [0b00000010] = .ok (.halt, []) ∧ decode [0b00010010] = .ok (.input, []) ∧
    decode [0b00010011] = .ok (.print, []) := ⟨rfl, rfl, rfl, rfl, rfl⟩

/-- mode 00 and operation codes 0x03 to 0x0B -/
theorem test_decode_arith :
    decode [0b00000011] = .ok (.add, []) ∧ decode [0b00000100] = .ok (.sub, []) ∧
    decode [0b00000101] = .ok (.mul, []) ∧ decode [0b00000110] = .ok (.div, []) ∧
    decode [0b00000111] = .ok (.mod, []) ∧ decode [0b00001000] = .ok (.neg, []) ∧
    decode [0b00001001] = .ok (.and, []) ∧ decode [0b00001010] = .ok (.or, []) ∧
    decode [0b00001011] = .ok (.not, []) := ⟨rfl, rfl, rfl, rfl, rfl, rfl, rfl, rfl, rfl⟩

/-- mode 00 and operation codes 0x0C to 0x11 -/
theorem test_decode_compare :
    decode [0b00001100] = .ok (.eq, []) ∧ decode [0b00001101] = .ok (.ne, []) ∧
    decode [0b00001110] = .ok (.lt, []) ∧ decode [0b00001111] = .ok (.le, []) ∧
    decode [0b00010000] = .ok (.gt, []) ∧ decode [0b00010001] = .ok (.ge, []) :=
  ⟨rfl, rfl, rfl, rfl, rfl, rfl⟩

/-- mode 00 and operation codes 0x14 to 0x17 -/
theorem test_decode_shift :
    decode [0b00010100] = .ok (.shl, []) ∧ decode [0b00010101] = .ok (.shr, []) ∧
    decode [0b00010110] = .ok (.rol, []) ∧ decode [0b00010111] = .ok (.ror, []) :=
  ⟨rfl, rfl, rfl, rfl⟩

/-- PUSH (0x18) in mode 01 and 10, POP (0x19) in mode 10; 2.7 of the vectors: `PUSH -2147483648`,
`PUSH [fp-12]`, `PUSH [sp-8192]`, `PUSH [ip+1]`, `PUSH [fp+8191]`, `POP [sp-8]` -/
theorem test_decode_push_pop :
    decode [0b01011000, 0x00, 0x00, 0x00, 0x80, 0xAA] = .ok (.pushImm 0x80000000, [0xAA]) ∧
    decode [0b10011000, 0xF4, 0x7F] = .ok (.pushInd .fp (-12), []) ∧
    decode [0x98, 0x00, 0x20] = .ok (.pushInd .sp (-8192), []) ∧
    decode [0x98, 0x01, 0x80] = .ok (.pushInd .ip 1, []) ∧
    decode [0x98, 0xFF, 0x5F] = .ok (.pushInd .fp 8191, []) ∧
    decode [0b10011001, 0xF8, 0x3F] = .ok (.pop .sp (-8), []) := ⟨rfl, rfl, rfl, rfl, rfl, rfl⟩

/-- CALL (0x1A), JUMP (0x1B), JZ (0x1C) in mode 10; bits 15:14 of a target are target, not tag (R87) -/
theorem test_decode_control :
    decode [0b10011010, 0x04, 0x00] = .ok (.call 4, []) ∧
    decode [0b10011011, 0x00, 0x40] = .ok (.jump 16384, []) ∧
    decode [0b10011100, 0x0E, 0xC0] = .ok (.jz 0xC00E, []) := ⟨rfl, rfl, rfl⟩

/-- 2.9 of the vectors, and an instruction cut short -/
theorem test_decode_rejects :
    decode [0x3F] = .error .unknownOpcode ∧ decode [0x1D] = .error .unknownOpcode ∧
    decode [0xC0] = .error .reservedMode ∧ decode [0x43, 0, 0, 0, 0] = .error .wrongMode ∧
    decode [0x18] = .error .wrongMode ∧ decode [0x59, 0, 0, 0, 0] = .error .wrongMode ∧
    decode [0x98, 0x00, 0xC0] = .error .reservedTag ∧ decode [0x58, 1, 2, 3] = .error .truncated :=
  ⟨rfl, rfl, rfl, rfl, rfl, rfl, rfl, rfl⟩

/-- "All 30 legal first bytes: 0x00 to 0x17, 0x58, 0x98, 0x99, 0x9A, 0x9B, 0x9C" (2.9 of the vectors) -/
theorem test_thirty_first_bytes :
    ((List.range 256).filter (fun b => (decodeOpcode (BitVec.ofNat 8 b)).isOk)) =
      List.range 24 ++ [0x58, 0x98, 0x99, 0x9A, 0x9B, 0x9C] := by decide

/-- the encoder on the same vectors: `PUSH 1234`, `PUSH [ip-3]`, `POP [ip+0]`, `CALL 10` -/
theorem test_encode :
    encode (.pushImm 1234) = [0x58, 0xD2, 0x04, 0x00, 0x00] ∧
    encode (.pushInd .ip (-3)) = [0x98, 0xFD, 0xBF] ∧ encode (.pop .ip 0) = [0x99, 0x00, 0x80] ∧
    encode (.call 10) = [0x9A, 0x0A, 0x00] := by decide

/-- table words: SUB in 8 bits; PUSH immediate with its operand in 40 bits; PUSH indirect given no operand
bits reads zeros, `[sp+0]` -/
theorem test_decodeTableWord :
    decodeTableWord 8 0x04 = some .sub ∧ decodeTableWord 40 0x0000000758 = some (.pushImm 7) ∧
    decodeTableWord 8 0x98 = some (.pushInd .sp 0) ∧ decodeTableWord 24 0x7FF499 = some (.pop .fp (-12)) ∧
    decodeTableWord 8 0x18 = none := by decide

/-- a table word placed at reset is what the next step runs -/
theorem test_withFetchWord :
    oneStep (State.reset.withFetchWord 24 0x01029B) =
      { State.reset.withFetchWord 24 0x01029B with ip := 0x0102 } := by decide

/-! ### Instructions: one step each -/

/-- 2.1: 2147483647 + 1 wraps -/
theorem test_add_wraps : binaryStep 0x03 2147483647 1 = (1, 5, 0x80000000) := by decide
theorem test_add : binaryStep 0x03 2 3 = (1, 5, 5) := by decide
/-- S8: left minus right -/
theorem test_sub : binaryStep 0x04 10 3 = (1, 5, 7) := by decide
theorem test_sub_negative : binaryStep 0x04 3 10 = (1, 5, 0xFFFFFFF9) := by decide
/-- 2.1: -4 * 5, and the high half lost -/
theorem test_mul_signed : binaryStep 0x05 (-4) 5 = (1, 5, 0xFFFFFFEC) := by decide
theorem test_mul_high_half : binaryStep 0x05 65536 65536 = (1, 5, 0) := by decide
/-- 2.2: -7 / 2 truncates; INT_MIN / -1 faults -/
theorem test_div_truncates : binaryStep 0x06 (-7) 2 = (1, 5, 0xFFFFFFFD) := by decide
theorem test_div_overflow :
    faultStep (machine [0x06] [0x80000000, -1]) = some (.arithmeticFault, 0) := by decide
/-- 2.2: 7 mod -2 is 1, so the sign is the dividend's; a zero divisor faults -/
theorem test_mod_sign : binaryStep 0x07 7 (-2) = (1, 5, 1) := by decide
theorem test_mod_zero : faultStep (machine [0x07] [5, 0]) = some (.arithmeticFault, 0) := by decide
/-- 2.3 -/
theorem test_and_bitwise : binaryStep 0x09 2 1 = (1, 5, 0) := by decide
theorem test_and : binaryStep 0x09 12 10 = (1, 5, 8) := by decide
theorem test_or : binaryStep 0x0A 12 10 = (1, 5, 14) := by decide
theorem test_neg : unaryStep 0x08 5 = (1, 5, 0xFFFFFFFB) := by decide
theorem test_neg_min : unaryStep 0x08 0x80000000 = (1, 5, 0x80000000) := by decide
theorem test_not : unaryStep 0x0B 0x0F0F0F0F = (1, 5, 0xF0F0F0F0) := by decide
theorem test_not_one : unaryStep 0x0B 1 = (1, 5, 0xFFFFFFFE) := by decide
/-- 2.4: the rows (-1, 0) and (INT_MIN, INT_MAX) tell signed from unsigned -/
theorem test_eq : (binaryStep 0x0C 5 5).2.2 = 1 ∧ (binaryStep 0x0C 5 6).2.2 = 0 := by decide
theorem test_ne : (binaryStep 0x0D 5 5).2.2 = 0 ∧ (binaryStep 0x0D (-1) 0).2.2 = 1 := by decide
theorem test_lt_signed : (binaryStep 0x0E (-1) 0).2.2 = 1 ∧ (binaryStep 0x0E 5 5).2.2 = 0 := by decide
theorem test_le : (binaryStep 0x0F 5 5).2.2 = 1 ∧ (binaryStep 0x0F 3 2).2.2 = 0 := by decide
theorem test_gt : (binaryStep 0x10 3 2).2.2 = 1 ∧
    (binaryStep 0x10 0x80000000 0x7FFFFFFF).2.2 = 0 := by decide
theorem test_ge : (binaryStep 0x11 5 5).2.2 = 1 ∧ (binaryStep 0x11 (-1) 0).2.2 = 0 := by decide
/-- 2.5: 0x80000001 and -8 tell the four apart -/
theorem test_shl : unaryStep 0x14 0x80000001 = (1, 5, 0x00000002) := by decide
theorem test_shr_logical : unaryStep 0x15 0xFFFFFFF8 = (1, 5, 0x7FFFFFFC) := by decide
theorem test_rol : unaryStep 0x16 0x80000001 = (1, 5, 0x00000003) := by decide
theorem test_ror : unaryStep 0x17 0x80000001 = (1, 5, 0xC0000000) := by decide

/-- S1, step 1 -/
theorem test_push_imm :
    let t := oneStep (machine [0x58, 0x07, 0x00, 0x00, 0x00] [])
    (t.ip, t.sp, top t) = (5, 9, 7) := by decide
/-- 2.9: no room for the slot -/
theorem test_push_imm_overflow :
    faultStep { machine [0x58, 0, 0, 0, 0] [] with sp := 16381 } = some (.stackOverflow, 0) := by decide
/-- P5, step 1: the base `ip` is the next instruction's address -/
theorem test_push_ip_relative :
    let t := oneStep (machine [0x98, 0x01, 0x80, 0x58, 0xD2, 0x04, 0x00, 0x00] [])
    (t.ip, t.sp, top t) = (3, 12, 1234) := by decide
/-- 2.7: `PUSH [sp-8192]` at `sp` = 3 -/
theorem test_push_ind_bounds : faultStep (machine [0x98, 0x00, 0x20] []) = some (.memoryBounds, 0) := by
  decide
/-- 2.7: `POP [sp-8]` resolves with the old `sp`, so 2 lands on the 1 -/
theorem test_pop_old_sp :
    let t := oneStep (machine [0x99, 0xF8, 0x3F] [1, 2])
    (t.ip, t.sp, top t) = (3, 7, 2) := by decide
/-- 2.7: the pop precedes the write -/
theorem test_pop_underflow_first :
    faultStep (machine [0x99, 0x00, 0x20] []) = some (.stackUnderflow, 0) := by decide
/-- 2.8 -/
theorem test_jump : (oneStep (machine [0x9B, 0x04, 0x00] [])).ip = 4 := by decide
theorem test_jump_unchecked :
    let t := oneStep (machine [0x9B, 0x00, 0x40] [])
    t.ip = 16384 ∧ faultStep t = some (.fetchBounds, 16384) := by decide
/-- 2.8: taken on zero, consumed either way -/
theorem test_jz_taken :
    let t := oneStep (machine [0x9C, 0x09, 0x00] [0])
    (t.ip, t.sp) = (9, 3) := by decide
theorem test_jz_not_taken :
    let t := oneStep (machine [0x9C, 0x09, 0x00] [1])
    (t.ip, t.sp) = (3, 3) := by decide
/-- S4, step 1 -/
theorem test_call :
    let t := oneStep (machine [0x9A, 0x04, 0x00, 0x02, 0, 0, 0, 0, 0, 0, 0, 0, 0, 0, 0, 0] [])
    (t.ip, t.sp, t.fp, t.word 16, t.word 20) = (4, 24, 24, 3, 16) := by decide
theorem test_call_second_push_overflows :
    faultStep { machine [0x9A, 0x04, 0x00] [] with sp := 16380 } = some (.stackOverflow, 0) := by decide
/-- S4, step 5, with the frame CALL left: 3 and 16 saved, 5 returned -/
theorem test_ret :
    let s := { machine [0x01, 0, 0, 0, 0, 0, 0, 0, 0, 0, 0, 0, 0, 0, 0, 0] [3, 16, 5] with fp := 24 }
    let t := oneStep s
    (t.ip, t.sp, t.fp, t.word 16) = (3, 20, 16, 5) := by decide
/-- 2.6: RET at top level underflows at its second pop -/
theorem test_ret_top_level :
    faultStep (machine [0x01] [1]) = some (.stackUnderflow, 0) := by decide
/-- 2.10 -/
theorem test_nop : oneStep (machine [0x00] []) = { machine [0x00] [] with ip := 1 } := by decide
theorem test_halt :
    let t := oneStep (machine [0x02] [])
    (t.status, t.ip, t.sp, t.fp) = (.halted, 1, 1, 1) := by decide
theorem test_input :
    let t := oneStep ((machine [0x12] []).withInput [10, -3])
    (t.ip, t.sp, top t, t.input) = (1, 5, 10, [-3]) := by decide
/-- "stalls at INPUT forever: `status = RUNNING`" -/
theorem test_input_waits : oneStep (machine [0x12] []) = machine [0x12] [] := by decide
theorem test_print :
    let t := oneStep (machine [0x13] [-1])
    (t.ip, t.sp, t.output) = (1, 1, [-1]) := by decide
/-- S10 -/
theorem test_print_empty :
    let t := oneStep (machine [0x13] [])
    t.faultRecord = some (.stackUnderflow, 0) ∧ t.output = [] := by decide

/-! ### Fetch, Load, observer, assembler -/

/-- 2.9: an operand field that would end at 16384 -/
theorem test_operand_fetch_bounds :
    faultStep (({ State.reset with ip := 16380 }).withMem (State.reset.mem.write 16380 [0x58]))
      = some (.fetchBounds, 16380) := by decide
theorem test_reserved_tag_faults : faultStep (machine [0x98, 0x00, 0xC0] []) = some (.decodeFault, 0) := by
  decide
/-- R37, R241: the unit before any Load -/
theorem test_power_on : State.powerOn.status = .idle ∧ State.powerOn.output = [] := by decide
/-- R210: the codes, both ways -/
theorem test_fault_codes :
    ([FKind.none, .stackUnderflow, .decodeFault, .stackOverflow, .memoryBounds, .fetchBounds,
      .arithmeticFault, .loadFault].map (fun k => (FKind.ofCode k.code, k.code.toNat))) =
    [(.none, 0), (.stackUnderflow, 1), (.decodeFault, 2), (.stackOverflow, 3), (.memoryBounds, 4),
      (.fetchBounds, 5), (.arithmeticFault, 6), (.loadFault, 7)] := by decide
/-- R130: a halted run has a result, a running one has none -/
theorem test_result :
    ((oneStep (machine [0x02] [])).result.map RunResult.ip) = some 1 ∧
      (machine [0x02] []).result = none := by decide
/-- R129, R230: the hooks of a HALT -/
theorem test_observe_halt :
    observe (machine [0x02] []) =
      some [⟨.beforeFetch, 0, .halt, 0, 1, 1⟩, ⟨.onHalt, 0, .halt, 1, 1, 1⟩] := by decide

/-- S3 in little, forward reference and comment included: `JZ a;x`, `PUSH -2`, `a: POP [sp-4]` -/
theorem test_assemble :
    Assembler.assemble ['J', 'Z', ' ', 'a', ';', 'x', '\n', 'P', 'U', 'S', 'H', ' ', '-', '2', '\n',
      'a', ':', ' ', 'P', 'O', 'P', ' ', '[', 's', 'p', '-', '4', ']']
      = .ok [0x9C, 0x08, 0x00, 0x58, 0xFE, 0xFF, 0xFF, 0xFF, 0x99, 0xFC, 0x3F] := rfl
/-- S7: the undefined label is named -/
theorem test_assemble_unresolved :
    Assembler.assemble ['J', 'U', 'M', 'P', ' ', 'n', 'o'] = .error (.unresolved ['n', 'o']) := rfl
/-- R104, D32: the literal 2147483648 is out of range on line 2 -/
theorem test_assemble_literal_range :
    Assembler.assemble ['\n', 'P', 'U', 'S', 'H', ' ', '2', '1', '4', '7', '4', '8', '3', '6', '4', '8']
      = .error (.literalRange 2) := rfl
/-- R113: lower case is no mnemonic, so it is a label without its colon -/
theorem test_assemble_case : Assembler.assemble ['n', 'o', 'p'] = .error (.unexpected 1) := rfl

/-! ### Witnesses: values that meet the hypotheses of each statement, clause by clause, at the edges -/

/-- A running unit with a given stack base, `sp` and `fp`. -/
def stackAt (sb sp fp : W32) : State := { State.reset with sb := sb, sp := sp, fp := fp }

/-- A running unit with a given `ip` and bytes from that address on. -/
def fetchAt (ip : W32) (bytes : List Byte) : State :=
  ({ State.reset with ip := ip }).withMem (State.reset.mem.write ip.toNat bytes)

/-- Both clauses of `BinaryRule`: exactly two values, at the bottom and at the top of memory; one byte
short of two; nothing. -/
abbrev BinaryWitness : Prop :=
  (StackInBounds (stackAt 0 8 0) ∧ (0 : W32).toInt + 8 ≤ (8 : W32).toInt) ∧
  (StackInBounds (stackAt 16376 16384 0) ∧ (16376 : W32).toInt + 8 ≤ (16384 : W32).toInt) ∧
  (StackInBounds (stackAt 1 8 1) ∧ (8 : W32).toInt < (1 : W32).toInt + 8) ∧
  (StackInBounds (stackAt 16384 16384 0) ∧ (16384 : W32).toInt < (16384 : W32).toInt + 8)

/-- Both clauses of `UnaryRule`: exactly one value, at the bottom and at the top of memory; one byte
short of one; nothing. -/
abbrev UnaryWitness : Prop :=
  (StackInBounds (stackAt 0 4 0) ∧ (0 : W32).toInt + 4 ≤ (4 : W32).toInt) ∧
  (StackInBounds (stackAt 16380 16384 0) ∧ (16380 : W32).toInt + 4 ≤ (16384 : W32).toInt) ∧
  (StackInBounds (stackAt 1 4 1) ∧ (4 : W32).toInt < (1 : W32).toInt + 4) ∧
  (StackInBounds (stackAt 16384 16384 0) ∧ (16384 : W32).toInt < (16384 : W32).toInt + 4)

/-- A small machine has a left and a right operand on its stack. -/
abbrev TwoOnStack (l r : W32) : Prop :=
  let s := machine [0x06] [l, r]
  StackInBounds s ∧ s.sb.toInt + 8 ≤ s.sp.toInt ∧
    s.word (s.sp.toNat - 8) = l ∧ s.word (s.sp.toNat - 4) = r

/-- The clauses of `DivisionRule`: an ordinary pair, a zero divisor, `INT_MIN` by -1, `INT_MIN` by 1; and
the underflow. -/
abbrev DivisionWitness : Prop :=
  (TwoOnStack 7 (-2) ∧ ¬ divisionFaults 7 (-2)) ∧ (TwoOnStack 5 0 ∧ divisionFaults 5 0) ∧
  (TwoOnStack 0x80000000 (-1) ∧ divisionFaults 0x80000000 (-1)) ∧
  (TwoOnStack 0x80000000 1 ∧ ¬ divisionFaults 0x80000000 1) ∧
  (StackInBounds (stackAt 1 8 1) ∧ (8 : W32).toInt < (1 : W32).toInt + 8)

/-- `OperandFetchRule`: the opcode byte is the last of memory, or the operand ends one byte outside. -/
abbrev OperandFetchWitness (first : Byte) (n : Nat) : Prop :=
  ∀ ip ∈ [16383, 16385 - n],
    let s := fetchAt (BitVec.ofNat 32 ip) [first]
    s.status = .running ∧ 0 ≤ s.ip.toInt ∧ s.ip.toInt < Config.memSize ∧
      s.byte s.ip.toNat = first ∧ (Config.memSize : Int) < s.ip.toInt + n

/-- `ReservedTagRule`: an operand with tag 3 in the last three bytes of memory. -/
abbrev ReservedTagWitness (first : Byte) : Prop :=
  let s := fetchAt 16381 [first, 0x00, 0xC0]
  s.status = .running ∧ inMemory s.ip.toInt 3 ∧ s.byte s.ip.toNat = first ∧
    (s.byte (s.ip.toNat + 2)).extractLsb' 6 2 = 3

theorem witness_AddSubMulWrapModulo32Bits : BinaryWitness := by decide
theorem witness_AndOrWorkBitByBit : BinaryWitness := by decide
theorem witness_DivTruncatesTowardZero : DivisionWitness := by decide
theorem witness_ModLeavesTruncatedRemainder : DivisionWitness := by decide
theorem witness_QuotientAndRemainderFitTogether :
    ((2 : W32).toInt ≠ 0 ∧ ¬ ((-7 : W32).toInt = -2147483648 ∧ (2 : W32).toInt = -1)) ∧
    ((1 : W32).toInt ≠ 0 ∧ ¬ ((0x80000000 : W32).toInt = -2147483648 ∧ (1 : W32).toInt = -1)) ∧
    ((-1 : W32).toInt ≠ 0 ∧ ¬ ((0x80000001 : W32).toInt = -2147483648 ∧ (-1 : W32).toInt = -1)) := by
  decide
theorem witness_NegIsTwosComplement : UnaryWitness := by decide
theorem witness_NotComplementsEveryBit : UnaryWitness := by decide
theorem witness_EqNeComparePatterns : BinaryWitness := by decide
theorem witness_OrderedComparisonsAreSigned : BinaryWitness := by decide
theorem witness_ShiftsAreLogicalByOneBit : UnaryWitness := by decide
theorem witness_RotatesAreCircularByOneBit : UnaryWitness := by decide
theorem witness_RolThenRorRestoresTheState :
    StackInBounds (stackAt 16380 16384 0) ∧ (16380 : W32).toInt + 4 ≤ (16384 : W32).toInt := by decide

/-- room for exactly one slot, and one byte too few -/
theorem witness_PushImmediatePushesItsLiteral :
    OperandFetchWitness 0x58 5 ∧ inMemory (stackAt 0 16380 0).sp.toInt 4 ∧
      ¬ inMemory (stackAt 0 16381 0).sp.toInt 4 := by decide
/-- the last address a three-byte instruction can stand at -/
theorem witness_EffectiveAddressOfEachBase : inMemory (fetchAt 16381 []).ip.toInt 3 := by decide
/-- a displacement at each end of its range; the last readable word, one byte further, with and without
room for the slot -/
theorem witness_PushIndirectLoadsAWord :
    OperandFetchWitness 0x98 3 ∧ ReservedTagWitness 0x98 ∧
    ((-8192 : Int) ≤ -8192 ∧ (-8192 : Int) ≤ 8191) ∧ ((-8192 : Int) ≤ 8191 ∧ (8191 : Int) ≤ 8191) ∧
    (inMemory (resolveEA .fp 8188 ((stackAt 0 16380 8192).fetched .packed)) 4 ∧
      inMemory (stackAt 0 16380 8192).sp.toInt 4) ∧
    (inMemory (resolveEA .fp 8188 ((stackAt 0 16381 8192).fetched .packed)) 4 ∧
      ¬ inMemory (stackAt 0 16381 8192).sp.toInt 4) ∧
    ¬ inMemory (resolveEA .fp 8189 ((stackAt 0 16380 8192).fetched .packed)) 4 := by decide
/-- one value with the address in memory at its edge and one byte beyond; no value -/
theorem witness_PopStoresTheTopOfStack :
    OperandFetchWitness 0x99 3 ∧ ReservedTagWitness 0x99 ∧
    ((-8192 : Int) ≤ -8192 ∧ (-8192 : Int) ≤ 8191) ∧ ((-8192 : Int) ≤ 8191 ∧ (8191 : Int) ≤ 8191) ∧
    (StackInBounds (stackAt 0 4 8192) ∧ (stackAt 0 4 8192).sb.toInt + 4 ≤ (stackAt 0 4 8192).sp.toInt ∧
      inMemory (resolveEA .fp 8188 ((stackAt 0 4 8192).fetched .packed)) 4 ∧
      ¬ inMemory (resolveEA .fp 8189 ((stackAt 0 4 8192).fetched .packed)) 4) ∧
    (StackInBounds (stackAt 1 4 1) ∧ (stackAt 1 4 1).sp.toInt < (stackAt 1 4 1).sb.toInt + 4) := by
  decide
theorem witness_PopSpMinusFourDiscardsTheTop : UnaryWitness := by decide

theorem witness_JumpSetsIpAlone : OperandFetchWitness 0x9B 3 := by decide
theorem witness_JzBranchesOnZero : OperandFetchWitness 0x9C 3 ∧ UnaryWitness := by decide
/-- room for exactly two slots, and one byte too few -/
theorem witness_CallOpensAFrame :
    OperandFetchWitness 0x9A 3 ∧
    (0 ≤ (stackAt 0 16376 0).sp.toInt ∧ (stackAt 0 16376 0).sp.toInt + 8 ≤ Config.memSize) ∧
    (0 ≤ (stackAt 0 16377 0).sp.toInt ∧ (Config.memSize : Int) < (stackAt 0 16377 0).sp.toInt + 8) := by
  decide
/-- a frame at each end of memory; no value; `fp` one byte short of one and of two saved slots; `fp` beyond
memory -/
theorem witness_RetClosesTheFrame :
    (∀ s ∈ [stackAt 0 12 8, stackAt 0 16384 16384],
      StackInBounds s ∧ s.sb.toInt + 4 ≤ s.sp.toInt ∧ s.sb.toInt + 8 ≤ s.fp.toInt ∧
        s.fp.toInt ≤ Config.memSize) ∧
    (∀ s ∈ [stackAt 1 4 9, stackAt 0 4 3, stackAt 0 8 7],
      StackInBounds s ∧ (s.sp.toInt < s.sb.toInt + 4 ∨ s.fp.toInt < s.sb.toInt + 4 ∨
        (s.fp.toInt ≤ Config.memSize ∧ s.fp.toInt < s.sb.toInt + 8))) ∧
    (StackInBounds (stackAt 0 4 16385) ∧
      (stackAt 0 4 16385).sb.toInt + 4 ≤ (stackAt 0 4 16385).sp.toInt ∧
      (stackAt 0 4 16385).sb.toInt + 4 ≤ (stackAt 0 4 16385).fp.toInt ∧
      (Config.memSize : Int) < (stackAt 0 4 16385).fp.toInt) := by decide
/-- CALL in a small machine, and then a callee that has pushed one value -/
theorem witness_RetUndoesCall :
    let s := machine [0x9A, 0x03, 0x00] []
    let t := nextOf s (exec (.call 3) s)
    let u := nextOf t (exec (.pushImm 5) t)
    StackInBounds s ∧ s.sp.toInt + 8 ≤ Config.memSize ∧ u.fp = t.fp ∧ u.sb = t.sb ∧
      u.fp.toInt + 4 ≤ u.sp.toInt ∧ u.sp.toInt ≤ Config.memSize ∧
      u.word (t.fp.toNat - 8) = t.word (t.fp.toNat - 8) ∧
      u.word (t.fp.toNat - 4) = t.word (t.fp.toNat - 4) := by decide
theorem witness_RetUndoesCall_call :
    let s := machine [0x9A, 0x03, 0x00] []
    exec (.call 3) s = .next (nextOf s (exec (.call 3) s)) := rfl
/-- the first target outside memory and the last a target can be; room for exactly two slots; a zero on
the stack; a frame at the bottom of memory whose return address is the first address outside, and one
with a negative return address -/
theorem witness_WildTargetFaultsAtTheNextFetch :
    (State.reset.status = .running ∧ Config.memSize ≤ (16384 : Half).toNat ∧
      Config.memSize ≤ (65535 : Half).toNat) ∧
    ((stackAt 0 16376 0).status = .running ∧ 0 ≤ (stackAt 0 16376 0).sp.toInt ∧
      (stackAt 0 16376 0).sp.toInt + 8 ≤ Config.memSize) ∧
    (let s := machine [0x9C, 0x00, 0x40] [0]
     s.status = .running ∧ StackInBounds s ∧ s.sb.toInt + 4 ≤ s.sp.toInt ∧
       s.word (s.sp.toNat - 4) = 0) ∧
    (let s := { machine [0x01] [16384, 1, 5] with fp := 9 }
     s.status = .running ∧ StackInBounds s ∧ s.sb.toInt + 4 ≤ s.sp.toInt ∧
       s.sb.toInt + 8 ≤ s.fp.toInt ∧ s.fp.toInt ≤ Config.memSize ∧
       (Config.memSize : Int) ≤ (s.word (s.fp.toNat - 8)).toInt) ∧
    (let s := { machine [0x01] [-1, 1, 5] with fp := 9 }
     s.status = .running ∧ StackInBounds s ∧ s.sb.toInt + 4 ≤ s.sp.toInt ∧
       s.sb.toInt + 8 ≤ s.fp.toInt ∧ s.fp.toInt ≤ Config.memSize ∧
       (s.word (s.fp.toNat - 8)).toInt < 0) := by decide

/-- nothing to take; a value with room for exactly one slot; a value with one byte too few -/
theorem witness_InputPushesTheNextValue :
    State.reset.input = [] ∧
    (((stackAt 0 16380 0).withInput [7]).input = 7 :: [] ∧ inMemory (stackAt 0 16380 0).sp.toInt 4) ∧
    (((stackAt 0 16381 0).withInput [7]).input = 7 :: [] ∧ ¬ inMemory (stackAt 0 16381 0).sp.toInt 4) := by
  decide
theorem witness_PrintOutputsTheTopOfStack : UnaryWitness := by decide
/-- a PRINT, an INPUT and an instruction that is neither, each with a next state -/
theorem witness_OnlyInputAndPrintReachTheChannels :
    (∃ t, exec .print (machine [0x13] [1]) = .next t) ∧
    (∃ t, exec .input ((machine [0x12] []).withInput [1]) = .next t) ∧
    ∃ t, exec .nop State.reset = .next t := ⟨⟨_, rfl⟩, ⟨_, rfl⟩, ⟨_, rfl⟩⟩

/-- a five-byte instruction in the last five bytes of memory, and a one-byte one in the last byte -/
theorem witness_StepRunsTheDecodedInstruction :
    (let s := fetchAt 16379 [0x58, 1, 0, 0, 0]
     s.status = .running ∧ inMemory s.ip.toInt (Instr.pushImm 1).length ∧
       decode (s.bytes s.ip.toNat (Instr.pushImm 1).length) = .ok (.pushImm 1, [])) ∧
    (let s := fetchAt 16383 [0x02]
     s.status = .running ∧ inMemory s.ip.toInt Instr.halt.length ∧
       decode (s.bytes s.ip.toNat Instr.halt.length) = .ok (.halt, [])) :=
  ⟨⟨rfl, by decide, rfl⟩, ⟨rfl, by decide, rfl⟩⟩
/-- one byte below memory, one above -/
theorem witness_OpcodeFetchOutsideMemoryFaults :
    ((fetchAt 0xFFFFFFFF []).status = .running ∧ (fetchAt 0xFFFFFFFF []).ip.toInt < 0) ∧
    ((fetchAt 16384 []).status = .running ∧ (Config.memSize : Int) ≤ (fetchAt 16384 []).ip.toInt) := by
  decide
/-- the bytes next to the legal ones, in the last byte of memory -/
theorem witness_IllegalFirstByteFaults :
    ∀ b ∈ [(0x18 : Byte), 0x57, 0x59, 0x97, 0x9D, 0xC0, 0xFF],
      let s := fetchAt 16383 [b]
      s.status = .running ∧ 0 ≤ s.ip.toInt ∧ s.ip.toInt < Config.memSize ∧
        ¬ ((s.byte s.ip.toNat).toNat ≤ 0x17 ∨ s.byte s.ip.toNat = 0x58 ∨
          (0x98 ≤ (s.byte s.ip.toNat).toNat ∧ (s.byte s.ip.toNat).toNat ≤ 0x9C)) := by decide
/-- PUSH and POP with tag 3, in the last three bytes of memory -/
theorem witness_ReservedRegisterTagFaults : ReservedTagWitness 0x98 ∧ ReservedTagWitness 0x99 := by
  decide
theorem witness_NoStepUnlessRunning :
    State.reset.status = .running ∧ State.powerOn.status = .idle ∧
      (machine [] []).loadRejected.status = .faulted ∧
      ((machine [0x02] []).withStatus .halted).status = .halted := by decide

theorem witness_ImmediateIsLittleEndian : (Instr.pushImm 1).format = .imm := rfl
/-- one decoded instruction of each length -/
theorem witness_LengthFollowsTheModeTag :
    decode (0x13 :: [0xFF]) = .ok (.print, [0xFF]) ∧
    decode (0x58 :: [1, 0, 0, 0, 0xFF]) = .ok (.pushImm 1, [0xFF]) ∧
    decode (0x9B :: [1, 0, 0xFF]) = .ok (.jump 1, [0xFF]) := ⟨rfl, rfl, rfl⟩
theorem witness_DecodeInvertsEncode :
    (Instr.pushInd .fp (-8192)).wellFormed = true ∧ (Instr.pop .ip 8191).wellFormed = true ∧
      (Instr.pushImm 0xFFFFFFFF).wellFormed = true := by decide
theorem witness_EncodeInvertsDecode :
    decode [0x98, 0xFF, 0x5F, 0x00] = .ok (.pushInd .fp 8191, [0x00]) := rfl

/-- the first word, the last word, and the addresses next to them -/
theorem witness_WordReadsBackAsWritten :
    inMemory 0 4 ∧ inMemory 16380 4 ∧ ¬ inMemory (-1) 4 ∧ ¬ inMemory 16381 4 := by decide
theorem witness_PopReturnsWhatWasPushed :
    StackInBounds (stackAt 0 16380 0) ∧ (stackAt 0 16380 0).sp.toInt + 4 ≤ Config.memSize := by decide
/-- a byte beside the word a PUSH writes -/
theorem witness_UnwrittenByteIsStable :
    let s := machine [0x58, 1, 0, 0, 0] []
    (oneStep s).status ≠ .faulted ∧ Memory.get? (oneStep s).mem 9 = none ∧
      Memory.get? (oneStep s).mem 16383 = none := by decide
theorem witness_UnwrittenByteIsStable_step :
    let s := machine [0x58, 1, 0, 0, 0] []
    step s = .next (oneStep s) := rfl

/-- a step that faults in its fetch and one that faults in its Operation -/
theorem witness_FaultedStepRecordsItsInstruction :
    (oneStep (machine [0xC0] [])).status = .faulted ∧ (oneStep (machine [0x13] [])).status = .faulted := by
  decide
theorem witness_FaultedStepRecordsItsInstruction_step :
    step (machine [0xC0] []) = .next (oneStep (machine [0xC0] [])) ∧
      step (machine [0x13] []) = .next (oneStep (machine [0x13] [])) := ⟨rfl, rfl⟩
/-- a fault of MOD in bounds -/
theorem witness_FaultsOfEachInstruction :
    let s := machine [0x07] [5, 0]
    StackInBounds s ∧ s.status ≠ .faulted ∧ (nextOf s (exec .mod s)).status = .faulted := by decide
theorem witness_FaultsOfEachInstruction_exec :
    let s := machine [0x07] [5, 0]
    exec .mod s = .next (nextOf s (exec .mod s)) := rfl
theorem witness_NoStepChangesTheStackBase :
    step (machine [0x00] []) = .next (oneStep (machine [0x00] [])) := rfl
theorem witness_OnlyHaltHalts :
    State.reset.status = .running ∧ (∃ t, exec .halt State.reset = .next t) ∧
      ∃ t, exec .nop State.reset = .next t := ⟨rfl, ⟨_, rfl⟩, ⟨_, rfl⟩⟩

/-- the empty image, and one of exactly `MEM_SIZE` bytes, with an address inside it -/
theorem witness_LoadStartsTheImageAtZero :
    ([] : List Byte).length ≤ Config.memSize ∧
    ∃ image : List Byte, image.length ≤ Config.memSize ∧ 16383 < image.length :=
  ⟨by decide, List.replicate Config.memSize 0, by rw [List.length_replicate],
    by rw [List.length_replicate]; decide⟩
/-- one byte more -/
theorem witness_LoadRejectsALongImage : ∃ image : List Byte, Config.memSize < image.length :=
  ⟨List.replicate (Config.memSize + 1) 0, by rw [List.length_replicate]; decide⟩
theorem witness_StepKeepsTheInvariant :
    Inv State.reset ∧ Inv (machine [0x03] [1, 2]) ∧ Inv (stackAt 0 16384 16385) := by decide
theorem witness_StepKeepsTheInvariant_step :
    step (machine [0x03] [1, 2]) = .next (oneStep (machine [0x03] [1, 2])) := rfl
theorem witness_ObserverSeesACompletedStep : ∃ calls, observe (machine [0x02] []) = some calls :=
  ⟨_, rfl⟩
/-- a HALT, and an INPUT with a value to take -/
theorem witness_ObserverSeesACompletedStep_step :
    (let s := machine [0x02] []
     s.status = .running ∧ fetch s = .ok .halt ∧ ¬ (Instr.halt = .input ∧ s.input = []) ∧
       step s = .next (oneStep s) ∧ (oneStep s).status ≠ .faulted) ∧
    (let s := (machine [0x12] []).withInput [7]
     s.status = .running ∧ fetch s = .ok .input ∧ ¬ (Instr.input = .input ∧ s.input = []) ∧
       step s = .next (oneStep s) ∧ (oneStep s).status ≠ .faulted) :=
  ⟨⟨rfl, rfl, by decide, rfl, by decide⟩, ⟨rfl, rfl, by decide, rfl, by decide⟩⟩

/-- `JZ a` and `a: NOP` -/
def smallSource : List Char := ['J', 'Z', ' ', 'a', '\n', 'a', ':', 'N', 'O', 'P']

theorem witness_ImageLengthIsTheSumOfSizes :
    Assembler.parse smallSource =
      .ok [⟨none, some (.labelled .jz ['a'])⟩, ⟨some ['a'], some (.plain .nop)⟩] ∧
    Assembler.assemble smallSource = .ok [0x9C, 0x03, 0x00, 0x00] := ⟨rfl, rfl⟩
/-- a line before that binds another name -/
theorem witness_LabelResolvesToItsFirstBinding :
    (∀ m ∈ [(⟨some ['b'], some (.plain .nop)⟩ : Assembler.Line)], m.label ≠ some ['a']) ∧
    (⟨some ['a'], none⟩ : Assembler.Line).label = some ['a'] ∧
    ([(⟨some ['b'], some (.plain .nop)⟩ : Assembler.Line)].map Assembler.Line.size).sum < 65536 := by
  decide
/-- as many one-byte lines before as wanted, none of which binds the name -/
theorem lines_of_size (n : Nat) :
    ∃ before : List Assembler.Line, (∀ m ∈ before, m.label ≠ some ['a']) ∧
      (before.map Assembler.Line.size).sum = n := by
  refine ⟨List.replicate n ⟨none, some (.plain .nop)⟩, fun m hm => ?_, ?_⟩
  · rw [List.eq_of_mem_replicate hm]
    decide
  · rw [List.map_replicate, List.sum_replicate]
    exact Nat.mul_one n
/-- both sides of the range: the last offset that fits, 65535, and the first that does not, 65536 -/
theorem witness_LabelResolvesToItsFirstBinding_range :
    (⟨some ['a'], none⟩ : Assembler.Line).label = some ['a'] ∧
    (∃ before : List Assembler.Line, (∀ m ∈ before, m.label ≠ some ['a']) ∧
      (before.map Assembler.Line.size).sum = 65535 ∧
      (before.map Assembler.Line.size).sum < 65536) ∧
    ∃ before : List Assembler.Line, (∀ m ∈ before, m.label ≠ some ['a']) ∧
      (before.map Assembler.Line.size).sum = 65536 ∧
      ¬ (before.map Assembler.Line.size).sum < 65536 := by
  obtain ⟨u, hu, eu⟩ := lines_of_size 65535
  obtain ⟨v, hv, ev⟩ := lines_of_size 65536
  exact ⟨rfl, ⟨u, hu, eu, by omega⟩, v, hv, ev, by omega⟩
theorem witness_AssembledInstructionsDecode :
    Assembler.assemble smallSource = .ok [0x9C, 0x03, 0x00, 0x00] ∧
    Assembler.assembleInstrs smallSource = .ok ([.jz 3] ++ .nop :: []) := ⟨rfl, rfl⟩

end Sys2Proof.Tests
end

section
/-! Memory and the channels: which instructions reach `IN` and `OUT` (R69), and the byte order of an
immediate (R53, R84). -/

namespace Sys2Proof.Machine

/-! ### The channels -/

/-- A completed instruction takes from `IN` only if it is an INPUT, and then at most the oldest value. -/
theorem Completes.input_cases {i : Instr} {s t : State} (h : Completes i s t) :
    t.input = s.input ∨ (i = .input ∧ t.input = s.input.tail) := by
  cases h with
  | input v rest hin hm => exact .inr ⟨rfl, (congrArg List.tail hin).symm⟩
  | _ => exact .inl rfl

/-- A completed instruction appends to `OUT` only if it is a PRINT, and then the top of stack. -/
theorem Completes.output_cases {i : Instr} {s t : State} (h : Completes i s t) :
    t.output = s.output ∨ (i = .print ∧ t.output = s.output ++ [s.word (s.sp.toNat - 4)]) := by
  cases h with
  | print hc => exact .inr ⟨rfl, rfl⟩
  | _ => exact .inl rfl

/-- Completed or faulted, an instruction takes from `IN` only if it is an INPUT (R69, U11). -/
theorem exec_input_cases {i : Instr} {s t : State} (h : exec i s = .next t) :
    t.input = s.input ∨ (i = .input ∧ t.input = s.input.tail) := by
  rcases exec_next h with ⟨k, inp, rfl, hinp⟩ | hc
  · exact hinp
  · exact hc.input_cases

/-- Completed or faulted, an instruction appends to `OUT` only if it is a PRINT (R69, R219). -/
theorem exec_output_cases {i : Instr} {s t : State} (h : exec i s = .next t) :
    t.output = s.output ∨ (i = .print ∧ t.output = s.output ++ [s.word (s.sp.toNat - 4)]) := by
  rcases exec_next h with ⟨k, inp, rfl, -⟩ | hc
  · exact .inl rfl
  · exact hc.output_cases

/-- Settles O28, from what each instruction can do with `IN` and with `OUT`. -/
theorem onlyInputAndPrintReachTheChannels : Obligations.OnlyInputAndPrintReachTheChannels := by
  intro i s t h
  have hin := exec_input_cases h
  have hout := exec_output_cases h
  exact ⟨fun hi => hin.resolve_right fun h => hi h.1, hin.imp_right And.right,
    fun hi => hout.resolve_right fun h => hi h.1, hout.imp_right And.right⟩

/-! ### The immediate -/

/-- A byte put below a bit vector is the low digit in base 256. -/
theorem toNat_append_byte {n : Nat} (x : BitVec n) (b : Byte) :
    (x ++ b).toNat = b.toNat + 256 * x.toNat := by
  rw [BitVec.toNat_append, ← Nat.shiftLeft_add_eq_or_of_lt b.isLt, Nat.shiftLeft_eq, Nat.add_comm,
    Nat.mul_comm]
  rfl

/-- Four bytes in ascending address order are a word, the last most significant (R53). -/
theorem wordOfBytes_four (b0 b1 b2 b3 : Byte) :
    wordOfBytes [b0, b1, b2, b3] = b3 ++ b2 ++ b1 ++ b0 := by
  have hvalue : valueOfBytes .little [b0, b1, b2, b3] = (b3 ++ b2 ++ b1 ++ b0).toNat := by
    simp only [valueOfBytes_cons, toNat_append_byte]
    rfl
  rw [wordOfBytes, hvalue, BitVec.ofNat_toNat]
  exact BitVec.setWidth_eq _

/-- The opcode byte `0x58` selects PUSH with an immediate operand (R84, R89). -/
theorem decodeOpcode_pushImm : decodeOpcode 0x58 = .ok (.imm .pushImm) := rfl

/-- PUSH with an immediate decodes to the word of the four bytes after its opcode byte (R84). -/
theorem decode_pushImm (b0 b1 b2 b3 : Byte) (rest : List Byte) :
    decode (0x58 :: b0 :: b1 :: b2 :: b3 :: rest) =
      .ok (.pushImm (wordOfBytes [b0, b1, b2, b3]), rest) := by
  rw [decode, decodeOpcode_pushImm]
  have hlen : ¬ (b0 :: b1 :: b2 :: b3 :: rest).length < 4 := by simp
  exact if_neg hlen

/-- PUSH alone has an immediate operand (R84). -/
theorem mnemonic_of_format_imm {i : Instr} (h : i.format = .imm) : i.mnemonic = .push := by
  cases i with
  | pushImm imm => rfl
  | _ => cases h

/-- Settles O34: the word of the immediate's four bytes is those bytes put together. -/
theorem immediateIsLittleEndian : Obligations.ImmediateIsLittleEndian := by
  refine ⟨fun i h => mnemonic_of_format_imm h, fun b0 b1 b2 b3 rest => ?_⟩
  rw [decode_pushImm, wordOfBytes_four]

end Sys2Proof.Machine
end

section
/-! The assembler's labels: what the binding list of a program answers for a name, line by line (R107),
and what a reference resolves to (R109). -/

namespace Sys2Proof.Assembler

section Lookup

variable {name : Name} {l : Line}

/-- A line that binds the name binds it to its own offset, whatever the lines after it bind (R107). -/
theorem offsetOf_bindings_cons_self (offset : Nat) (ls : List Line) (h : l.label = some name) :
    offsetOf name (bindings offset (l :: ls)) = some offset := by
  simp [bindings, offsetOf, h]

/-- A line that does not bind the name only moves the offset of the lines after it (R107). -/
theorem offsetOf_bindings_cons_of_ne (offset : Nat) (ls : List Line) (h : l.label ≠ some name) :
    offsetOf name (bindings offset (l :: ls)) = offsetOf name (bindings (offset + l.size) ls) := by
  cases hl : l.label with
  | none => simp [bindings, hl]
  | some n =>
    have hn : n ≠ name := fun hn => h (hl.trans (congrArg some hn))
    simp [bindings, offsetOf, hl, hn]

/-- Lines that do not bind the name move the offset of those after them by their total size (R107). -/
theorem offsetOf_bindings_append {before : List Line} (hbefore : ∀ m ∈ before, m.label ≠ some name)
    (offset : Nat) (ls : List Line) :
    offsetOf name (bindings offset (before ++ ls)) =
      offsetOf name (bindings (offset + (before.map Line.size).sum) ls) := by
  induction before generalizing offset with
  | nil => simp
  | cons m ms ih =>
    obtain ⟨hm, hms⟩ := List.forall_mem_cons.mp hbefore
    rw [List.cons_append, offsetOf_bindings_cons_of_ne _ _ hm, ih hms, List.map_cons, List.sum_cons,
      Nat.add_assoc]

/-- A reference to a bound label resolves to its offset, or fails if that needs more than 16 bits. -/
theorem resolve_labelled_of_offsetOf_eq_some {bs : List (Name × Nat)} {a : Nat} (t : Transfer)
    (h : offsetOf name bs = some a) :
    resolve bs (.labelled t name) =
      if a < 65536 then .ok (t.instr (BitVec.ofNat 16 a)) else .error (.targetRange name) := by
  simp only [resolve, h]
  rfl

/-- A reference to a label that is not bound fails and names the label (R109, R111). -/
theorem resolve_labelled_of_offsetOf_eq_none {bs : List (Name × Nat)} (t : Transfer)
    (h : offsetOf name bs = none) : resolve bs (.labelled t name) = .error (.unresolved name) := by
  simp only [resolve, h]

end Lookup

/-- Settles O55: the lines before only add up their sizes, and the next line's binding is the first. -/
theorem labelResolvesToItsFirstBinding : Obligations.LabelResolvesToItsFirstBinding := by
  intro t name before after l hbefore
  refine ⟨fun hl => ?_, ?_⟩
  · have hfirst : offsetOf name (bindings 0 (before ++ l :: after)) =
        some (before.map Line.size).sum := by
      rw [offsetOf_bindings_append hbefore, offsetOf_bindings_cons_self _ _ hl, Nat.zero_add]
    exact resolve_labelled_of_offsetOf_eq_some t hfirst
  · have hunbound : offsetOf name (bindings 0 before) = none := by
      rw [← List.append_nil before, offsetOf_bindings_append hbefore]
      rfl
    exact resolve_labelled_of_offsetOf_eq_none t hunbound

end Sys2Proof.Assembler
end

section
/-! The unary shape as a rule (R150): what an instruction of that shape says once its function is known,
and NOT's function (R149). -/

namespace Sys2Proof.Machine

open Sys2Proof.Safety

/-- The fault entry of the unit raises the fault it is given (R218, R219). -/
theorem raises_raise (k : FKind) (s : State) : Raises k s (.next (raise k s.ip s)) :=
  ⟨raise k s.ip s, rfl, rfl, rfl, rfl, rfl⟩

/-- A whole unary instruction with an operand and a result (R150). -/
theorem unaryInstr_value {op : W32 → Except FKind W32} {s : State} {r : W32} (h : canPop s)
    (hop : op (s.word (s.sp.toNat - 4)) = .ok r) :
    unaryInstr op s = .next ((s.fetched .basic).store (s.sp.toNat - 4) r) :=
  congrArg (complete s) (unary_value (s := s.fetched .basic) h hop)

/-- A whole unary instruction on an empty stack (R150). -/
theorem unaryInstr_underflow {op : W32 → Except FKind W32} {s : State}
    (h : s.sp.toInt - 4 < s.sb.toInt) :
    unaryInstr op s = .next (raise .stackUnderflow s.ip s) :=
  congrArg (complete s) (unary_underflow (s := s.fetched .basic) h)

/-- An instruction of the unary shape whose function never faults follows the unary rule (R150). -/
theorem unaryRule_of_exec_eq {i : Instr} {f : W32 → Except FKind W32} {op : W32 → W32}
    (hexec : ∀ s, exec i s = unaryInstr f s) (hop : ∀ v, f v = .ok (op v)) : UnaryRule i op := by
  intro s hs
  obtain ⟨hbase, -, htop⟩ := hs
  refine ⟨fun hvalue => ?_, fun hempty => ?_⟩
  · have hc : canPop s := ⟨by omega, by omega, htop⟩
    exact ⟨_, (hexec s).trans (unaryInstr_value hc (hop _)), rfl, State.word_store_same _ _ _,
      fun _ hb => State.byte_store_outside _ _ hb⟩
  · rw [hexec, unaryInstr_underflow (by omega)]
    exact raises_raise .stackUnderflow s

/-- In two's complement, the bitwise complement is the negation less one (R6, R149). -/
theorem wrap32_neg_toInt_sub_one (v : W32) : wrap32 (-v.toInt - 1) = ~~~v := by
  rw [wrap32, Int.sub_eq_add_neg, BitVec.ofInt_add, BitVec.ofInt_neg, BitVec.ofInt_toInt,
    BitVec.not_eq_neg_add, BitVec.sub_eq_add_neg]
  rfl

/-- Settles O7: NOT has the unary shape, and its function is the complement in either form. -/
theorem notComplementsEveryBit : Obligations.NotComplementsEveryBit :=
  ⟨rfl, unaryRule_of_exec_eq (fun _ => rfl) fun _ => rfl,
    unaryRule_of_exec_eq (fun _ => rfl) fun v => congrArg Except.ok (wrap32_neg_toInt_sub_one v).symm⟩

end Sys2Proof.Machine
end

section
/-! The binary shape as a rule (R140, R160): what an instruction of that shape says once its function is
known, and the functions of EQ and NE (R161, R162). -/

namespace Sys2Proof.Machine

open Sys2Proof.Safety

/-- A whole binary instruction with two operands and a result (R140). -/
theorem binaryInstr_value {op : W32 → W32 → Except FKind W32} {s : State} {r : W32} (h : canPopTwo s)
    (hop : op (s.word (s.sp.toNat - 8)) (s.word (s.sp.toNat - 4)) = .ok r) :
    binaryInstr op s =
      .next (((s.fetched .basic).store (s.sp.toNat - 8) r).withSp (s.sp - 4)) :=
  congrArg (complete s) (binary_value (s := s.fetched .basic) h hop)

/-- A whole binary instruction with fewer than two operands (R140). -/
theorem binaryInstr_underflow {op : W32 → W32 → Except FKind W32} {s : State}
    (hs : StackInBounds s) (h : s.sp.toInt < s.sb.toInt + 8) :
    binaryInstr op s = .next (raise .stackUnderflow s.ip s) := by
  obtain ⟨hbase, -, htop⟩ := hs
  exact congrArg (complete s)
    (binary_underflow (s := s.fetched .basic) (Int.sub_right_lt_of_lt_add h) hbase htop)

/-- An instruction of the binary shape whose function never faults follows the binary rule (R140). -/
theorem binaryRule_of_exec_eq {i : Instr} {f : W32 → W32 → Except FKind W32} {op : W32 → W32 → W32}
    (hexec : ∀ s, exec i s = binaryInstr f s) (hop : ∀ l r, f l r = .ok (op l r)) :
    BinaryRule i op := by
  intro s hs
  refine ⟨fun hvalues => ?_, fun hshort => ?_⟩
  · obtain ⟨hbase, -, htop⟩ := hs
    have hc : canPopTwo s := ⟨by omega, by omega, htop⟩
    exact ⟨_, (hexec s).trans (binaryInstr_value hc (hop _ _)), rfl, State.word_store_same _ _ _,
      fun _ hb => State.byte_store_outside _ _ hb⟩
  · rw [hexec, binaryInstr_underflow hs hshort]
    exact raises_raise .stackUnderflow s

/-- EQ gives 1 for equal patterns and 0 for different ones (R161). -/
theorem eqOp_eq (l r : W32) : eqOp l r = .ok (if l = r then 1 else 0) := by
  simp only [eqOp, truthWord, beq_iff_eq]

/-- NE gives 0 for equal patterns and 1 for different ones (R162). -/
theorem neOp_eq (l r : W32) : neOp l r = .ok (if l = r then 0 else 1) := by
  simp only [neOp, truthWord, bne_iff_ne, ne_eq, ite_not]

/-- Settles O8: EQ and NE have the binary shape, and their functions never fault. -/
theorem eqNeComparePatterns : Obligations.EqNeComparePatterns :=
  ⟨rfl, binaryRule_of_exec_eq (fun _ => rfl) eqOp_eq,
    rfl, binaryRule_of_exec_eq (fun _ => rfl) neOp_eq⟩

end Sys2Proof.Machine
end

section
/-! Shifts and rotates (R170 to R173): the arithmetic forms of the shifts, and the rotations as inverses
of each other. -/

namespace Sys2Proof.Machine

/-! ### The shifts -/

/-- Shifting up one place is doubling modulo `2 ^ 32` (R170). -/
theorem shiftLeft_one_eq_ofNat (v : W32) : v <<< 1 = BitVec.ofNat 32 (2 * v.toNat) := by
  refine BitVec.eq_of_toNat_eq ?_
  rw [BitVec.toNat_shiftLeft, Nat.shiftLeft_eq, pow_one, Nat.mul_comm, BitVec.toNat_ofNat]

/-- Shifting down one place is halving the unsigned reading (R171). -/
theorem ushiftRight_one_eq_ofNat (v : W32) : v >>> 1 = BitVec.ofNat 32 (v.toNat / 2) := by
  have hhalf : v.toNat / 2 < 2 ^ 32 := (Nat.div_le_self _ _).trans_lt v.isLt
  refine BitVec.eq_of_toNat_eq ?_
  rw [BitVec.toNat_ushiftRight, Nat.shiftRight_eq_div_pow, pow_one, BitVec.toNat_ofNat,
    Nat.mod_eq_of_lt hhalf]

/-- Settles O10: SHL and SHR have the unary shape, and either form of their functions is the same one. -/
theorem shiftsAreLogicalByOneBit : Obligations.ShiftsAreLogicalByOneBit :=
  ⟨rfl, unaryRule_of_exec_eq (fun _ => rfl) shlOp_eq,
    unaryRule_of_exec_eq (fun _ => rfl) fun v =>
      (shlOp_eq v).trans (congrArg Except.ok (shiftLeft_one_eq_ofNat v)),
    rfl, unaryRule_of_exec_eq (fun _ => rfl) shrOp_eq,
    unaryRule_of_exec_eq (fun _ => rfl) fun v =>
      (shrOp_eq v).trans (congrArg Except.ok (ushiftRight_one_eq_ofNat v))⟩

/-! ### The rotates -/

/-- Rotating up and then down by the same amount brings every bit back to its place. -/
theorem rotateRight_rotateLeft {w : Nat} (x : BitVec w) (n : Nat) :
    (x.rotateLeft n).rotateRight n = x := by
  ext i hi
  have hn : n % w < w := Nat.mod_lt _ (by omega)
  rw [BitVec.getElem_rotateRight]
  split
  next hlow =>
    rw [BitVec.getElem_rotateLeft, dif_neg (by omega)]
    exact getElem_congr_idx (by omega)
  next hwrapped =>
    rw [BitVec.getElem_rotateLeft, dif_pos (by omega)]
    exact getElem_congr_idx (by omega)

/-- Rotating down and then up by the same amount brings every bit back to its place. -/
theorem rotateLeft_rotateRight {w : Nat} (x : BitVec w) (n : Nat) :
    (x.rotateRight n).rotateLeft n = x := by
  ext i hi
  have hn : n % w < w := Nat.mod_lt _ (by omega)
  rw [BitVec.getElem_rotateLeft]
  split
  next hwrapped =>
    rw [BitVec.getElem_rotateRight, dif_neg (by omega)]
    exact getElem_congr_idx (by omega)
  next hhigh =>
    rw [BitVec.getElem_rotateRight, dif_pos (by omega)]
    exact getElem_congr_idx (by omega)

/-- ROR of a rotation up by one place gives the value before it (R172, R173). -/
theorem rorOp_rotateLeft (v : W32) : rorOp (v.rotateLeft 1) = .ok v := by
  rw [rorOp_eq, rotateRight_rotateLeft]

/-- ROL of a rotation down by one place gives the value before it (R172, R173). -/
theorem rolOp_rotateRight (v : W32) : rolOp (v.rotateRight 1) = .ok v := by
  rw [rolOp_eq, rotateLeft_rotateRight]

/-- Settles O11: ROL and ROR have the unary shape, and their functions are inverse rotations. -/
theorem rotatesAreCircularByOneBit : Obligations.RotatesAreCircularByOneBit :=
  ⟨rfl, unaryRule_of_exec_eq (fun _ => rfl) rolOp_eq,
    rfl, unaryRule_of_exec_eq (fun _ => rfl) rorOp_eq,
    fun v => ⟨_, _, rolOp_eq v, rorOp_rotateLeft v, rorOp_eq v, rolOp_rotateRight v⟩⟩

end Sys2Proof.Machine
end

section
/-! PUSH with an immediate operand (R180): the operand fetch outside memory (R123), the instruction with
and without room for a slot (R60), and its encoding. -/

namespace Sys2Proof.Machine

open Sys2Proof.Safety

/-- The fetch of an instruction that begins inside memory and ends outside it faults, whichever row its
opcode byte selects (R123, R221). -/
theorem fetch_of_operand_outside {s : State} {sh : Shape} (hip : inMemory s.ip.toInt 1)
    (hrow : decodeOpcode (s.byte s.ip.toNat) = .ok sh)
    (hend : (Config.memSize : Int) < s.ip.toInt + sh.format.length) :
    fetch s = .error .fetchBounds := by
  have hout : ¬ inMemory (s.ip.toInt + 1) sh.format.operandLength := by
    rw [Format.length] at hend
    omega
  simp only [fetch_cases, if_pos hip, hrow, if_neg hout]

/-- A first byte that selects a row follows the operand fetch rule with that row's length (R123). -/
theorem operandFetchRule_of_decodeOpcode {first : Byte} {sh : Shape}
    (hrow : decodeOpcode first = .ok sh) : OperandFetchRule first sh.format.length := by
  intro s hrun hlow hhigh hfirst hend
  have hip : inMemory s.ip.toInt 1 := ⟨hlow, hhigh⟩
  subst hfirst
  rw [step_of_fetch_error hrun (fetch_of_operand_outside hip hrow hend)]
  exact raises_raise .fetchBounds s

/-- PUSH immediate with room for a slot stores its literal at `sp` and moves `sp` past it (R180, R60). -/
theorem exec_pushImm_of_inMemory (imm : W32) {s : State} (h : inMemory s.sp.toInt 4) :
    exec (.pushImm imm) s =
      .next (((s.fetched .imm).store s.sp.toNat imm).withSp (s.sp + 4)) :=
  congrArg (complete s) (push32_of_inMemory imm (s.fetched .imm) h)

/-- PUSH immediate without room for a slot overflows (R180, R60). -/
theorem exec_pushImm_of_not_inMemory (imm : W32) {s : State} (h : ¬ inMemory s.sp.toInt 4) :
    exec (.pushImm imm) s = .next (raise .stackOverflow s.ip s) :=
  congrArg (complete s) (push32_of_not_inMemory imm (s.fetched .imm) h)

/-- PUSH immediate is its opcode byte and its literal, low byte first (R84, R89). -/
theorem encode_pushImm (imm : W32) :
    encode (.pushImm imm) = [0x58, imm.extractLsb' 0 8, imm.extractLsb' 8 8,
      imm.extractLsb' 16 8, imm.extractLsb' 24 8] := by
  rw [encode, opcodeByte_pushImm]
  exact congrArg (List.cons _) (bytesOfValue_word imm)

/-- Settles O13: the opcode byte selects a five-byte row, and the room for a slot decides the rest. -/
theorem pushImmediatePushesItsLiteral : Obligations.PushImmediatePushesItsLiteral := by
  refine ⟨operandFetchRule_of_decodeOpcode decodeOpcode_pushImm, rfl, rfl, rfl, fun imm s =>
    ⟨encode_pushImm imm, fun hroom => ?_, fun hfull => ?_⟩⟩
  · exact ⟨_, exec_pushImm_of_inMemory imm hroom, rfl, State.word_store_same _ _ _,
      fun _ hb => State.byte_store_outside _ _ hb⟩
  · rw [exec_pushImm_of_not_inMemory imm hfull]
    exact raises_raise .stackOverflow s

end Sys2Proof.Machine
end

section
/-! The transfers to a label: JUMP (R190), JZ (R191) and CALL (R192), with the encoding they share (R87). -/

namespace Sys2Proof.Machine

open Sys2Proof.Safety

/-! ### What the three share -/

/-- A transfer is its opcode byte and its target, low byte first (R87). -/
theorem encode_transfer (t : Assembler.Transfer) (target : Half) :
    encode (t.instr target) =
      [opcodeByte (t.instr target), target.extractLsb' 0 8, target.extractLsb' 8 8] := by
  cases t <;> exact congrArg (List.cons _) (bytesOfValue_half target)

/-- The opcode byte `0x9B` selects JUMP with a target (R87, R89). -/
theorem decodeOpcode_jump : decodeOpcode 0x9B = .ok (.target .jump) := rfl

/-- The opcode byte `0x9C` selects JZ with a target (R87, R89). -/
theorem decodeOpcode_jz : decodeOpcode 0x9C = .ok (.target .jz) := rfl

/-- The opcode byte `0x9A` selects CALL with a target (R87, R89). -/
theorem decodeOpcode_call : decodeOpcode 0x9A = .ok (.target .call) := rfl

/-! ### JUMP -/

/-- JUMP completes in every state, and `ip` is the target (R190). -/
theorem exec_jump (target : Half) (s : State) :
    exec (.jump target) s = .next (s.withIp (targetAddress target)) := rfl

/-- Settles O18: the opcode byte selects a three-byte row, and JUMP replaces `ip` in every state. -/
theorem jumpSetsIpAlone : Obligations.JumpSetsIpAlone := by
  refine ⟨operandFetchRule_of_decodeOpcode decodeOpcode_jump, fun _ _ => rfl, fun target s => ⟨?_, ?_⟩⟩
  · rw [← opcodeByte_jump target]
    exact encode_transfer .jump target
  · exact exec_jump target s

/-! ### JZ -/

/-- The Operation of JZ with a value to test (R191). -/
theorem popAndBranch_of_canPop (target : Half) {s : State} (h : canPop s) :
    popAndBranch target s = .ok ((s.withSp (s.sp - 4)).withIp
      (if s.word (s.sp.toNat - 4) = 0 then targetAddress target else s.ip)) := by
  by_cases hzero : s.word (s.sp.toNat - 4) = 0
  · simp [popAndBranch, pop32_of_canPop h, isZero, hzero]
  · simp only [popAndBranch, pop32_of_canPop h, isZero, beq_iff_eq, if_neg hzero]
    rfl

/-- The Operation of JZ on an empty stack (R191, R61). -/
theorem popAndBranch_underflow (target : Half) {s : State} (h : s.sp.toInt - 4 < s.sb.toInt) :
    popAndBranch target s = .error .stackUnderflow := by
  simp only [popAndBranch, pop32_underflow h]

/-- JZ with a value to test (R191). -/
theorem exec_jz_of_canPop (target : Half) {s : State} (h : canPop s) :
    exec (.jz target) s = .next ((s.withSp (s.sp - 4)).withIp
      (if s.word (s.sp.toNat - 4) = 0 then targetAddress target else s.ip + 3)) :=
  congrArg (complete s) (popAndBranch_of_canPop target (s := s.fetched .packed) h)

/-- JZ on an empty stack (R191, R61). -/
theorem exec_jz_underflow (target : Half) {s : State} (h : s.sp.toInt - 4 < s.sb.toInt) :
    exec (.jz target) s = .next (raise .stackUnderflow s.ip s) :=
  congrArg (complete s) (popAndBranch_underflow target (s := s.fetched .packed) h)

/-- Settles O19: the opcode byte selects a three-byte row, and whether there is a value decides the rest. -/
theorem jzBranchesOnZero : Obligations.JzBranchesOnZero := by
  refine ⟨operandFetchRule_of_decodeOpcode decodeOpcode_jz, fun _ _ => rfl, fun target s => ⟨?_, ?_⟩⟩
  · rw [← opcodeByte_jz target]
    exact encode_transfer .jz target
  · rintro ⟨hbase, -, htop⟩
    refine ⟨fun hvalue => ?_, fun hempty => ?_⟩
    · exact exec_jz_of_canPop target ⟨by omega, by omega, htop⟩
    · rw [exec_jz_underflow target (by omega)]
      exact raises_raise .stackUnderflow s

/-! ### CALL -/

/-- The frame CALL opens holds the return address in its first slot (R192). -/
theorem State.word_framed_first (target : Half) (s : State) :
    (s.framed target).word s.sp.toNat = s.ip :=
  (State.word_store_outside _ _ (.inl le_rfl)).trans (State.word_store_same _ _ _)

/-- The frame CALL opens holds the caller's `fp` in its second slot (R192). -/
theorem State.word_framed_second (target : Half) (s : State) :
    (s.framed target).word (s.sp.toNat + 4) = s.fp :=
  State.word_store_same _ _ _

/-- CALL writes the eight bytes of its frame alone (R192). -/
theorem State.sameBytesOutside_framed (target : Half) (s : State) :
    SameBytesOutside s (s.framed target) s.sp.toNat 8 := fun _ hb =>
  (State.byte_store_outside _ _ (by omega)).trans (State.byte_store_outside _ _ (by omega))

/-- CALL with room for its frame (R192). -/
theorem exec_call_of_canPushTwo (target : Half) {s : State} (h : canPushTwo s) :
    exec (.call target) s = .next ((s.fetched .packed).framed target) :=
  congrArg (complete s) (enterFrame_of_canPushTwo (s := s.fetched .packed) h)

/-- CALL with room for fewer than two slots (R192, R60). -/
theorem exec_call_overflow (target : Half) {s : State} (h : 0 ≤ s.sp.toInt)
    (h' : Config.memSize < s.sp.toInt + 8) :
    exec (.call target) s = .next (raise .stackOverflow s.ip s) :=
  congrArg (complete s) (enterFrame_overflow (s := s.fetched .packed) h h')

/-- Settles O20: the opcode byte selects a three-byte row, and the room for two slots decides the rest. -/
theorem callOpensAFrame : Obligations.CallOpensAFrame := by
  refine ⟨operandFetchRule_of_decodeOpcode decodeOpcode_call, fun _ _ => rfl, fun target s =>
    ⟨?_, fun hlow hroom => ?_, fun hlow hfull => ?_⟩⟩
  · rw [← opcodeByte_call target]
    exact encode_transfer .call target
  · exact ⟨_, exec_call_of_canPushTwo target ⟨hlow, hroom⟩, rfl, State.word_framed_first _ _,
      State.word_framed_second _ _, State.sameBytesOutside_framed target (s.fetched .packed)⟩
  · rw [exec_call_overflow target hlow hfull]
    exact raises_raise .stackOverflow s

end Sys2Proof.Machine
end

section
/-! RET (R193): the frame it takes down, and the three pops that can fault on the way. -/

namespace Sys2Proof.Machine

open Sys2Proof.Safety

/-- Of two values put into `sp` the later one stays. -/
@[simp] theorem State.withSp_withSp (v w : Reg) (s : State) :
    (s.withSp v).withSp w = s.withSp w := rfl

/-! ### The Operation -/

/-- RET's first pop decides when there is no value to return (R193, R61). -/
theorem leaveFrame_of_no_value {s : State} (h : s.sp.toInt - 4 < s.sb.toInt) :
    leaveFrame s = .error .stackUnderflow := by
  simp only [leaveFrame, pop32_underflow h]

/-- With a value to return, a fault of RET's second pop, at `fp`, is RET's (R193). -/
theorem leaveFrame_of_pop32_error {s : State} {k : FKind} (hc : canPop s)
    (h : pop32 (s.withSp s.fp) = .error k) : leaveFrame s = .error k := by
  simp only [leaveFrame, pop32_of_canPop hc, State.withSp_fp, State.withSp_withSp, h]

/-- With one slot at `fp` and not two, RET's third pop underflows (R193, R61). -/
theorem leaveFrame_of_one_slot {s : State} (hc : canPop s) (hc' : canPop (s.withSp s.fp))
    (h : s.fp.toInt - 8 < s.sb.toInt) : leaveFrame s = .error .stackUnderflow := by
  have hsp : (s.fp - 4).toInt = s.fp.toInt - 4 := toInt_sp_sub hc'.2.1
  have hthird (v : Reg) :
      pop32 ((s.withSp (s.fp - 4)).withFp v) = .error .stackUnderflow := by
    apply pop32_underflow
    simp only [State.withFp_sp, State.withFp_sb, State.withSp_sp, State.withSp_sb]
    omega
  simp only [leaveFrame, pop32_of_canPop hc, State.withSp_fp, State.withSp_withSp,
    pop32_of_canPop hc', State.withSp_sp, hthird]

/-- RET underflows when any of its three pops finds less than a slot above the base (R193, R61). -/
theorem leaveFrame_underflow {s : State} (hs : StackInBounds s)
    (h : s.sp.toInt < s.sb.toInt + 4 ∨ s.fp.toInt < s.sb.toInt + 4 ∨
      (s.fp.toInt ≤ Config.memSize ∧ s.fp.toInt < s.sb.toInt + 8)) :
    leaveFrame s = .error .stackUnderflow := by
  obtain ⟨hbase, -, htop⟩ := hs
  by_cases hvalue : s.sp.toInt - 4 < s.sb.toInt
  · exact leaveFrame_of_no_value hvalue
  have hc : canPop s := ⟨by omega, by omega, htop⟩
  by_cases hslot : s.fp.toInt - 4 < s.sb.toInt
  · exact leaveFrame_of_pop32_error hc (pop32_underflow hslot)
  · exact leaveFrame_of_one_slot hc
      (show s.sb.toInt ≤ s.fp.toInt - 4 ∧ 0 ≤ s.fp.toInt - 4 ∧ s.fp.toInt ≤ Config.memSize by omega)
      (by omega)

/-! ### The instruction -/

/-- RET writes the slot of the returned value alone (R193). -/
theorem State.sameBytesOutside_unframed (s : State) :
    SameBytesOutside s s.unframed (s.fp.toNat - 8) 4 := fun _ hb =>
  State.byte_store_outside _ _ hb

/-- RET leaves the top of stack where the return address was saved (R193). -/
theorem State.word_unframed (s : State) :
    s.unframed.word (s.fp.toNat - 8) = s.word (s.sp.toNat - 4) :=
  State.word_store_same _ _ _

/-- RET with a value to return and a frame to take down (R193). -/
theorem exec_ret_of_canLeave {s : State} (h : canLeave s) :
    exec .ret s = .next (s.fetched .basic).unframed :=
  congrArg (complete s) (leaveFrame_of_canLeave (s := s.fetched .basic) h)

/-- RET with a pop that finds less than a slot above the base (R193, R61). -/
theorem exec_ret_underflow {s : State} (hs : StackInBounds s)
    (h : s.sp.toInt < s.sb.toInt + 4 ∨ s.fp.toInt < s.sb.toInt + 4 ∨
      (s.fp.toInt ≤ Config.memSize ∧ s.fp.toInt < s.sb.toInt + 8)) :
    exec .ret s = .next (raise .stackUnderflow s.ip s) :=
  congrArg (complete s) (leaveFrame_underflow (s := s.fetched .basic) hs h)

/-- RET with a value to return and `fp` beyond memory (R193, R214). -/
theorem exec_ret_beyond {s : State} (hc : canPop s) (h : s.sb.toInt ≤ s.fp.toInt - 4)
    (h' : Config.memSize < s.fp.toInt) : exec .ret s = .next (raise .memoryBounds s.ip s) :=
  congrArg (complete s) (leaveFrame_of_pop32_error (s := s.fetched .basic) hc (pop32_beyond h h'))

/-- Settles O21: the frame is taken down when its two slots lie above the base and inside memory, and
otherwise the first of the three pops without its slot gives the fault. -/
theorem retClosesTheFrame : Obligations.RetClosesTheFrame := by
  refine ⟨rfl, rfl, fun s hs => ⟨fun hvalue hframe htop => ?_, fun hshort => ?_,
    fun hvalue hslot hbeyond => ?_⟩⟩
  · obtain ⟨hbase, -, hsp⟩ := hs
    have hframe' : canPopTwo (s.withSp s.fp) :=
      show s.sb.toInt ≤ s.fp.toInt - 8 ∧ 0 ≤ s.fp.toInt - 8 ∧ s.fp.toInt ≤ Config.memSize by omega
    exact ⟨_, exec_ret_of_canLeave ⟨⟨by omega, by omega, hsp⟩, hframe'⟩, rfl,
      State.word_unframed (s.fetched .basic), State.sameBytesOutside_unframed (s.fetched .basic)⟩
  · rw [exec_ret_underflow hs hshort]
    exact raises_raise .stackUnderflow s
  · obtain ⟨hbase, -, hsp⟩ := hs
    rw [exec_ret_beyond ⟨by omega, by omega, hsp⟩ (by omega) hbeyond]
    exact raises_raise .memoryBounds s

end Sys2Proof.Machine
end

section
/-! PRINT (R203): the pop that feeds the output, and the fault that comes before it. -/

namespace Sys2Proof.Machine

open Sys2Proof.Safety

/-- The Operation of PRINT with a value to write (R203). -/
theorem popAndOutput_of_canPop {s : State} (h : canPop s) :
    popAndOutput s =
      .ok ((s.withSp (s.sp - 4)).withOutput (s.output ++ [s.word (s.sp.toNat - 4)])) := by
  simp only [popAndOutput, pop32_of_canPop h, State.withSp_output]

/-- The Operation of PRINT on an empty stack (R203, R61). -/
theorem popAndOutput_underflow {s : State} (h : s.sp.toInt - 4 < s.sb.toInt) :
    popAndOutput s = .error .stackUnderflow := by
  simp only [popAndOutput, pop32_underflow h]

/-- PRINT with a value to write (R203). -/
theorem exec_print_of_canPop {s : State} (h : canPop s) :
    exec .print s = .next (((s.fetched .basic).withSp (s.sp - 4)).withOutput
      (s.output ++ [s.word (s.sp.toNat - 4)])) :=
  congrArg (complete s) (popAndOutput_of_canPop (s := s.fetched .basic) h)

/-- PRINT on an empty stack (R203, R61). -/
theorem exec_print_underflow {s : State} (h : s.sp.toInt - 4 < s.sb.toInt) :
    exec .print s = .next (raise .stackUnderflow s.ip s) :=
  congrArg (complete s) (popAndOutput_underflow (s := s.fetched .basic) h)

/-- Settles O27: whether there is a value on the stack decides between the output and the fault. -/
theorem printOutputsTheTopOfStack : Obligations.PrintOutputsTheTopOfStack := by
  refine ⟨rfl, fun s hs => ?_⟩
  obtain ⟨hbase, -, htop⟩ := hs
  refine ⟨fun hvalue => ?_, fun hempty => ?_⟩
  · exact exec_print_of_canPop ⟨by omega, by omega, htop⟩
  · rw [exec_print_underflow (by omega)]
    exact raises_raise .stackUnderflow s

end Sys2Proof.Machine
end

section
/-! The encoding: decoding split into its opcode byte and its operand, the rows of R89 by the operand
they read, and encoder and decoder as inverses of each other (R80 to R95). -/

namespace Sys2Proof

/-! ### The operand of an instruction -/

/-- An instruction's operand bytes are as many as its format says (R80). -/
theorem length_operandBytes (i : Instr) : (operandBytes i).length = i.format.operandLength := by
  cases i <;> simp [operandBytes, bytesOfValue, Instr.format, Format.operandLength]

/-- An instruction's bytes are as many as its length (R94). -/
theorem length_encode (i : Instr) : (encode i).length = i.length := by
  rw [encode, List.length_cons, length_operandBytes, Nat.add_comm]
  rfl

/-- A displacement in range is what its 14 bits read as (R86). -/
theorem toInt_ofInt_of_dispInRange {disp : Int} (h : dispInRange disp = true) :
    (BitVec.ofInt Config.dispBits disp).toInt = disp := by
  obtain ⟨hlow, hhigh⟩ := (dispInRange_iff disp).mp h
  rw [BitVec.toInt_ofInt]
  exact Int.bmod_eq_of_le (by norm_num; omega) (by norm_num; omega)

/-- What 14 bits read as is a displacement in range (R86). -/
theorem dispInRange_toInt (x : BitVec Config.dispBits) : dispInRange x.toInt = true := by
  have hlow := BitVec.le_toInt x
  have hhigh := BitVec.toInt_lt (x := x)
  norm_num at hlow hhigh
  exact (dispInRange_iff _).mpr ⟨hlow, by omega⟩

/-- A packed operand decodes to the register and the displacement it was made of (R86). -/
theorem decodeOperand_packedOperand (make : BaseReg → Int → Instr) {base : BaseReg} {disp : Int}
    (h : dispInRange disp = true) :
    decodeOperand (.baseDisp make)
      (bytesOfValue Config.dataEndian Config.operandSize (packedOperand base disp).toNat) =
      .ok (make base disp) := by
  simp only [decodeOperand, value_of_half_bytes, tag_packedOperand, disp_packedOperand,
    baseOfTag_tag, toInt_ofInt_of_dispInRange h]

/-- An instruction's operand bytes, read as its own row says, give the instruction (R84 to R88). -/
theorem decodeOperand_operandBytes {i : Instr} {sh : Shape} (hwf : i.wellFormed = true)
    (hrow : shapeOf i.mnemonic i.format = some sh) : decodeOperand sh (operandBytes i) = .ok i := by
  cases i with
  | pushImm imm =>
    cases hrow
    exact congrArg (fun v => Except.ok (Instr.pushImm v)) (value_of_word_bytes imm)
  | pushInd base disp => cases hrow; exact decodeOperand_packedOperand .pushInd hwf
  | pop base disp => cases hrow; exact decodeOperand_packedOperand .pop hwf
  | call target =>
    cases hrow
    exact congrArg (fun v => Except.ok (Instr.call v)) (value_of_half_bytes target)
  | jump target =>
    cases hrow
    exact congrArg (fun v => Except.ok (Instr.jump v)) (value_of_half_bytes target)
  | jz target =>
    cases hrow
    exact congrArg (fun v => Except.ok (Instr.jz v)) (value_of_half_bytes target)
  | _ => cases hrow; rfl

/-! ### Decoding as a relation -/

/-- Bytes decode to an instruction exactly when the first selects a row, as many bytes follow as the row
has in its operand, and these decode by the row (R80, R95). -/
theorem decode_eq_ok_iff {bs rest : List Byte} {i : Instr} :
    decode bs = .ok (i, rest) ↔ ∃ b sh operand, bs = b :: (operand ++ rest) ∧
      decodeOpcode b = .ok sh ∧ operand.length = sh.format.operandLength ∧
      decodeOperand sh operand = .ok i := by
  refine ⟨fun h => ?_, ?_⟩
  · unfold decode at h
    split at h
    · cases h
    · rename_i b tail
      split at h
      · cases h
      · rename_i sh hrow
        split at h
        · cases h
        · rename_i hlen
          split at h
          · cases h
          · rename_i j hop
            cases h
            exact ⟨b, sh, _, by rw [List.take_append_drop], hrow,
              List.length_take_of_le (Nat.le_of_not_lt hlen), hop⟩
  · rintro ⟨b, sh, operand, rfl, hrow, hlen, hop⟩
    have henough : ¬ (operand ++ rest).length < sh.format.operandLength := by
      rw [List.length_append]
      omega
    simp only [decode, hrow, if_neg henough, List.take_left' hlen, List.drop_left' hlen, hop]

/-- Settles O37: the opcode byte selects the instruction's own row, and the row reads its operand back. -/
theorem decodeInvertsEncode : Obligations.DecodeInvertsEncode := by
  intro i rest hwf
  obtain ⟨sh, hrow, hop, hformat⟩ := decodeOpcode_opcodeByte i
  exact decode_eq_ok_iff.mpr ⟨opcodeByte i, sh, operandBytes i, rfl, hop,
    by rw [length_operandBytes, hformat], decodeOperand_operandBytes hwf hrow⟩

/-! ### The rows by the operand they read -/

/-- The rows of R89: an instruction without an operand, PUSH with an immediate or a packed operand, POP,
and the three transfers. -/
inductive Row : Mnemonic → Format → Shape → Prop where
  | plain {m : Mnemonic} (i : Instr) (hm : i.mnemonic = m) (hf : i.format = .basic) :
      Row m .basic (.plain i)
  | pushImm : Row .push .imm (.imm .pushImm)
  | pushInd : Row .push .packed (.baseDisp .pushInd)
  | pop : Row .pop .packed (.baseDisp .pop)
  | target (t : Assembler.Transfer) : Row (t.instr 0).mnemonic .packed (.target t.instr)

/-- Whatever the table of R89 holds is one of these rows. -/
theorem row_of_shapeOf {m : Mnemonic} {f : Format} {sh : Shape} (h : shapeOf m f = some sh) :
    Row m f sh := by
  unfold shapeOf at h
  split at h <;> cases h
  case h_25 => exact .pushImm
  case h_26 => exact .pushInd
  case h_27 => exact .pop
  case h_28 => exact .target .call
  case h_29 => exact .target .jump
  case h_30 => exact .target .jz
  all_goals exact .plain _ rfl rfl

theorem mode_of_formatOfMode {mode : BitVec Config.modeBits} {f : Format}
    (h : formatOfMode mode = some f) : Config.mode f = mode :=
  eq_of_beq (List.find?_some (p := fun f => Config.mode f == mode) h)

theorem opc_of_mnemonicOfOpc {opc : BitVec Config.opcBits} {m : Mnemonic}
    (h : mnemonicOfOpc opc = some m) : Config.opc m = opc :=
  eq_of_beq (List.find?_some (p := fun m => Config.opc m == opc) h)

theorem tag_of_baseOfTag {tag : BitVec Config.tagBits} {r : BaseReg}
    (h : baseOfTag tag = some r) : Config.tag r = tag :=
  eq_of_beq (List.find?_some (p := fun r => Config.tag r == tag) h)

/-- The high and the low field of a bit vector, put together again. -/
theorem high_append_low {m k : Nat} (x : BitVec (m + k)) :
    x.extractLsb' k m ++ x.extractLsb' 0 k = x := by
  refine BitVec.eq_of_toNat_eq ?_
  have hpow : 2 ^ (m + k) = 2 ^ k * 2 ^ m := by rw [Nat.pow_add, Nat.mul_comm]
  have hhigh : x.toNat / 2 ^ k < 2 ^ m := Nat.div_lt_of_lt_mul (hpow ▸ x.isLt)
  rw [BitVec.toNat_append, ← Nat.shiftLeft_add_eq_or_of_lt (BitVec.isLt _), BitVec.extractLsb'_toNat,
    BitVec.extractLsb'_toNat, Nat.shiftLeft_eq, Nat.shiftRight_eq_div_pow, Nat.mod_eq_of_lt hhigh,
    Nat.shiftRight_zero, Nat.div_add_mod']

/-- A byte is its mode tag and its operation code (R81). -/
theorem modeField_append_opcField (b : Byte) : modeField b ++ opcField b = b :=
  high_append_low (m := Config.modeBits) (k := Config.opcBits) b

/-- A byte that selects a shape is the opcode byte of that row (R81, R89). -/
theorem row_of_decodeOpcode {b : Byte} {sh : Shape} (h : decodeOpcode b = .ok sh) :
    ∃ m f, Row m f sh ∧ b = Config.mode f ++ Config.opc m := by
  obtain ⟨m, f, hf, hm, hrow⟩ := Machine.decodeOpcode_ok h
  refine ⟨m, f, row_of_shapeOf hrow, ?_⟩
  rw [mode_of_formatOfMode hf, opc_of_mnemonicOfOpc hm, modeField_append_opcField]

/-- The format of a row is that of its shape. -/
theorem Row.format_eq {m : Mnemonic} {f : Format} {sh : Shape} (h : Row m f sh) : sh.format = f := by
  cases h <;> rfl

/-- An instruction of the format without an operand has no operand bytes and is well-formed. -/
theorem operandBytes_of_format_basic {i : Instr} (h : i.format = .basic) :
    operandBytes i = [] ∧ i.wellFormed = true := by
  cases i with
  | pushImm imm => cases h
  | pushInd base disp => cases h
  | pop base disp => cases h
  | call target => cases h
  | jump target => cases h
  | jz target => cases h
  | _ => exact ⟨rfl, rfl⟩

/-! ### Encoding what was decoded -/

/-- Four operand bytes read as a word are the bytes of that word (R53). -/
theorem bytesOfValue_word_of_bytes {bs : List Byte} (h : bs.length = 4) :
    bytesOfValue Config.dataEndian Config.wordSize
      (BitVec.ofNat Config.wordBits (valueOfBytes Config.dataEndian bs)).toNat = bs :=
  Machine.bytesOfWord_wordOfBytes h

/-- Two operand bytes read as a 16-bit field are the bytes of that field (R54). -/
theorem bytesOfValue_half_of_bytes {bs : List Byte} (h : bs.length = 2) :
    bytesOfValue Config.dataEndian Config.operandSize
      (BitVec.ofNat Config.operandBits (valueOfBytes Config.dataEndian bs)).toNat = bs := by
  have hlt : valueOfBytes .little bs < 65536 := by simpa [h] using valueOfBytes_lt bs
  show littleBytes 2 (BitVec.ofNat 16 (valueOfBytes .little bs)).toNat = bs
  rw [BitVec.toNat_ofNat, Nat.mod_eq_of_lt hlt, ← h, littleBytes_valueOfBytes]

/-- A 16-bit field is the packed operand of the register and the displacement read from it (R86). -/
theorem packedOperand_fields {w : Half} {r : BaseReg}
    (h : baseOfTag (w.extractLsb' Config.dispBits Config.tagBits) = some r) :
    packedOperand r (w.extractLsb' 0 Config.dispBits).toInt = w := by
  rw [packedOperand, tag_of_baseOfTag h, BitVec.ofInt_toInt]
  exact high_append_low (m := Config.tagBits) (k := Config.dispBits) w

/-- What a packed operand decodes to: a register and a displacement in range, whose packed operand has
the bytes that were read (R86, R93). -/
theorem decodeOperand_baseDisp_ok {make : BaseReg → Int → Instr} {bs : List Byte} {i : Instr}
    (hlen : bs.length = 2) (h : decodeOperand (.baseDisp make) bs = .ok i) :
    ∃ r disp, i = make r disp ∧ dispInRange disp = true ∧
      bytesOfValue Config.dataEndian Config.operandSize (packedOperand r disp).toNat = bs := by
  simp only [decodeOperand] at h
  split at h
  · cases h
  · rename_i r hr
    cases h
    exact ⟨r, _, rfl, dispInRange_toInt _,
      by rw [packedOperand_fields hr, bytesOfValue_half_of_bytes hlen]⟩

/-- What an operand decodes to by a row is an instruction of that row, well-formed, with the operand
bytes that were read. -/
theorem Row.of_decodeOperand {m : Mnemonic} {f : Format} {sh : Shape} {bs : List Byte} {i : Instr}
    (hrow : Row m f sh) (hlen : bs.length = f.operandLength) (h : decodeOperand sh bs = .ok i) :
    i.mnemonic = m ∧ i.format = f ∧ i.wellFormed = true ∧ operandBytes i = bs := by
  cases hrow with
  | plain j hm hf =>
    cases h
    obtain ⟨hbytes, hwf⟩ := operandBytes_of_format_basic hf
    exact ⟨hm, hf, hwf, hbytes.trans (List.length_eq_zero_iff.mp hlen).symm⟩
  | pushImm => cases h; exact ⟨rfl, rfl, rfl, bytesOfValue_word_of_bytes hlen⟩
  | pushInd =>
    obtain ⟨r, disp, rfl, hdisp, hbytes⟩ := decodeOperand_baseDisp_ok hlen h
    exact ⟨rfl, rfl, hdisp, hbytes⟩
  | pop =>
    obtain ⟨r, disp, rfl, hdisp, hbytes⟩ := decodeOperand_baseDisp_ok hlen h
    exact ⟨rfl, rfl, hdisp, hbytes⟩
  | target t =>
    cases h
    cases t <;> exact ⟨rfl, rfl, rfl, bytesOfValue_half_of_bytes hlen⟩

/-- Settles O38: the opcode byte is put together from the row's mode and code, and the operand decoded by
that row has the bytes it was read from. -/
theorem encodeInvertsDecode : Obligations.EncodeInvertsDecode := by
  intro i bs rest h
  obtain ⟨b, sh, operand, rfl, hop, hlen, hoperand⟩ := decode_eq_ok_iff.mp h
  obtain ⟨m, f, hrow, rfl⟩ := row_of_decodeOpcode hop
  obtain ⟨rfl, rfl, hwf, rfl⟩ := hrow.of_decodeOperand (by rw [hlen, hrow.format_eq]) hoperand
  exact ⟨hwf, rfl⟩

/-! ### The length (R94) -/

/-- The two top bits of an opcode byte are the mode tag of its instruction's format (R81, R82). -/
theorem toNat_opcodeByte_div (i : Instr) :
    (opcodeByte i).toNat / 64 = (Config.mode i.format).toNat := by
  have hopc : (Config.opc i.mnemonic).toNat < 64 := BitVec.isLt _
  rw [opcodeByte, BitVec.toNat_append, ← Nat.shiftLeft_add_eq_or_of_lt (BitVec.isLt _),
    Nat.shiftLeft_eq, show 2 ^ Config.opcBits = 64 from rfl]
  omega

/-- Settles O36: what decodes begins with its own opcode byte, whose two top bits name its format. -/
theorem lengthFollowsTheModeTag : Obligations.LengthFollowsTheModeTag := by
  intro b bs rest i h
  obtain ⟨-, hbytes⟩ := encodeInvertsDecode i (b :: bs) rest h
  have hlen : bs.length + 1 = i.length + rest.length := by
    rw [← length_encode, ← List.length_append, ← hbytes, List.length_cons]
  obtain rfl : b = opcodeByte i := (List.cons.inj hbytes).1
  refine ⟨hlen, ?_⟩
  rw [toNat_opcodeByte_div, Instr.length]
  cases i.format <;> decide

/-! ### Transfers and fixed words -/

/-- Two bytes in ascending address order are a 16-bit field, the last most significant (R54). -/
theorem half_of_two_bytes (lo hi : Byte) :
    BitVec.ofNat Config.operandBits (valueOfBytes Config.dataEndian [lo, hi]) = hi ++ lo := by
  have hvalue : valueOfBytes .little [lo, hi] = (hi ++ lo).toNat := by
    simp only [valueOfBytes_cons, Machine.toNat_append_byte]
    rfl
  rw [hvalue, BitVec.ofNat_toNat]
  exact BitVec.setWidth_eq _

/-- A first byte that selects a target row, and two bytes, decode to the transfer to those 16 bits
(R87, R88). -/
theorem decode_target {b : Byte} {make : Half → Instr} (hrow : decodeOpcode b = .ok (.target make))
    (lo hi : Byte) (rest : List Byte) :
    decode (b :: lo :: hi :: rest) = .ok (make (hi ++ lo), rest) :=
  decode_eq_ok_iff.mpr ⟨b, .target make, [lo, hi], rfl, hrow, Config.operandSize_eq.symm,
    congrArg (fun w => Except.ok (make w)) (half_of_two_bytes lo hi)⟩

/-- Settles O35: the three first bytes select target rows. -/
theorem transferTargetIsAllSixteenBits : Obligations.TransferTargetIsAllSixteenBits :=
  fun lo hi rest => ⟨decode_target Machine.decodeOpcode_call lo hi rest,
    decode_target Machine.decodeOpcode_jump lo hi rest, decode_target Machine.decodeOpcode_jz lo hi rest⟩

/-- Settles O39: twelve closed decodings, computed. -/
theorem wordsFromTheSpecDecode : Obligations.WordsFromTheSpecDecode :=
  ⟨rfl, rfl, rfl, rfl, rfl, rfl, rfl, rfl, rfl, rfl, rfl, rfl⟩

end Sys2Proof
end

section
/-! What every step keeps: the fields and the memory of a completed instruction, and that the
stack stays in bounds, form by form. -/

namespace Sys2Proof.Machine

open Sys2Proof.Safety

/-! ### The fields after a completed instruction -/

/-- A completed instruction leaves `sb` as it was (R25). -/
theorem Completes.sb_eq {i : Instr} {s t : State} (h : Completes i s t) : t.sb = s.sb := by
  cases h <;> rfl

/-- A completed HALT halts, and any other completed instruction leaves the status as it was (R26). -/
theorem Completes.status_eq {i : Instr} {s t : State} (h : Completes i s t) :
    t.status = if i = .halt then .halted else s.status := by
  cases h with
  | halt => rfl
  | binary r hi hc => rw [if_neg fun hhalt => by simp [hhalt, isBinary] at hi]; rfl
  | unary r hi hc => rw [if_neg fun hhalt => by simp [hhalt, isUnary] at hi]; rfl
  | _ => rfl

/-- A completed instruction does not fault a unit that had not faulted. -/
theorem Completes.status_ne_faulted {i : Instr} {s t : State} (h : Completes i s t)
    (hs : s.status ≠ .faulted) : t.status ≠ .faulted := by
  rw [h.status_eq]
  split
  · decide
  · exact hs

/-! ### Memory after a completed instruction -/

/-- Bytes written one run after the other are one write of both runs. -/
theorem Memory.write_write (m : Memory) (a : Nat) (bs cs : List Byte) :
    (m.write a bs).write (a + bs.length) cs = m.write a (bs ++ cs) := by
  have hcells (n : Cells) :
      Cells.write (Cells.write n a bs) (a + bs.length) cs = Cells.write n a (bs ++ cs) := by
    induction bs generalizing n a with
    | nil => rfl
    | cons b bs ih =>
      rw [List.length_cons, ← Nat.add_assoc, Nat.add_right_comm]
      exact ih (a + 1) (Cells.set n a b)
  exact congrArg (fun c => Memory.mk c m.draw) (hcells m.cells)

/-- A memory is another with one run of bytes written inside the array; the run may be empty. -/
def WrittenFrom (m m' : Memory) : Prop :=
  ∃ a bs, a + bs.length ≤ Config.memSize ∧ m' = m.write a bs

theorem writtenFrom_refl (m : Memory) : WrittenFrom m m := ⟨0, [], Nat.zero_le _, rfl⟩

theorem writtenFrom_store {s : State} {a : Nat} (v : W32) (h : a + 4 ≤ Config.memSize) :
    WrittenFrom s.mem (s.store a v).mem := ⟨a, bytesOfWord v, by rwa [length_bytesOfWord], rfl⟩

/-- The two slots of a frame are one run of bytes (R192). -/
theorem writtenFrom_framed {s : State} (target : Half) (h : s.sp.toNat + 8 ≤ Config.memSize) :
    WrittenFrom s.mem (s.framed target).mem := by
  refine ⟨s.sp.toNat, bytesOfWord s.ip ++ bytesOfWord s.fp, ?_, ?_⟩
  · rwa [List.length_append, length_bytesOfWord, length_bytesOfWord]
  · exact Memory.write_write s.mem s.sp.toNat (bytesOfWord s.ip) (bytesOfWord s.fp)

/-- A run of bytes written inside the array keeps the canonical form. -/
theorem WrittenFrom.wf {m m' : Memory} (h : WrittenFrom m m') (hm : Memory.Wf m) : Memory.Wf m' := by
  obtain ⟨a, bs, hlen, rfl⟩ := h
  exact Memory.wf_write hm hlen

/-- A write stays within the draw of the bytes nothing has written (R67). -/
theorem WrittenFrom.draw_eq {m m' : Memory} (h : WrittenFrom m m') : m'.draw = m.draw := by
  obtain ⟨a, bs, -, rfl⟩ := h
  rfl

/-- A byte that is unwritten after a write was unwritten before it (R67). -/
theorem WrittenFrom.get?_eq_none {m m' : Memory} (h : WrittenFrom m m') {b : Nat}
    (hb : m'.get? b = none) : m.get? b = none := by
  obtain ⟨a, bs, -, rfl⟩ := h
  by_cases hin : a ≤ b ∧ b < a + bs.length
  · obtain ⟨i, rfl⟩ := Nat.exists_eq_add_of_le hin.1
    rw [Memory.get?_write_inside _ _ _ i (by omega)] at hb
    cases hb
  · rwa [Memory.get?_write_outside _ _ (by omega)] at hb

/-- Every completed instruction writes one run of bytes inside memory, or nothing. -/
theorem Completes.writtenFrom {i : Instr} {s t : State} (h : Completes i s t) :
    WrittenFrom s.mem t.mem := by
  have hM : (Config.memSize : Int) = 16384 := rfl
  cases h with
  | binary r hi hc =>
    have hsp := toNat_of_toInt_nonneg (x := s.sp) (by omega)
    exact writtenFrom_store (s := s.fetched .basic) r (by omega)
  | unary r hi hc =>
    have hsp := toNat_of_toInt_nonneg (x := s.sp) (by omega)
    exact writtenFrom_store (s := s.fetched .basic) r (by omega)
  | pushImm imm hm =>
    have hsp := toNat_of_toInt_nonneg hm.1
    exact writtenFrom_store (s := s.fetched .imm) imm (by omega)
  | pushInd base disp v hm =>
    have hsp := toNat_of_toInt_nonneg hm.1
    exact writtenFrom_store (s := s.fetched .packed) v (by omega)
  | pop base disp v hc hm => exact writtenFrom_store (s := s.fetched .packed) v (by omega)
  | call target hc =>
    have hsp := toNat_of_toInt_nonneg hc.1
    exact writtenFrom_framed (s := s.fetched .packed) target
      (show s.sp.toNat + 8 ≤ Config.memSize by omega)
  | ret hl =>
    obtain ⟨-, -, hlow, hhigh⟩ := hl
    rw [State.withSp_sp] at hlow hhigh
    have hfp := toNat_of_toInt_nonneg (x := s.fp) (by omega)
    exact writtenFrom_store (s := s.fetched .basic) _
      (show s.fp.toNat - 8 + 4 ≤ Config.memSize by omega)
  | input v rest hin hm =>
    have hsp := toNat_of_toInt_nonneg hm.1
    exact writtenFrom_store (s := (s.fetched .basic).withInput rest) v (by omega)
  | _ => exact writtenFrom_refl _

/-! ### The stack after a completed instruction -/

/-- Every completed instruction keeps the stack between its base and the end of memory. -/
theorem Completes.stackInBounds {i : Instr} {s t : State} (h : Completes i s t)
    (hs : StackInBounds s) : StackInBounds t := by
  have hM : (Config.memSize : Int) = 16384 := rfl
  obtain ⟨hbase, hle, htop⟩ := hs
  have hpush (hm : inMemory s.sp.toInt 4) :
      0 ≤ s.sb.toInt ∧ s.sb.toInt ≤ (s.sp + 4).toInt ∧ (s.sp + 4).toInt ≤ Config.memSize := by
    have hsp := (toNat_sp_add hm.1 htop).1
    omega
  have hpop (hc : canPop s) :
      0 ≤ s.sb.toInt ∧ s.sb.toInt ≤ (s.sp - 4).toInt ∧ (s.sp - 4).toInt ≤ Config.memSize := by
    have hsp := toInt_sp_sub hc.2.1
    omega
  cases h with
  | binary r hi hc => exact hpop (canPop_of_canPopTwo hc)
  | pushImm imm hm => exact hpush hm
  | pushInd base disp v hm => exact hpush hm
  | pop base disp v hc hm => exact hpop hc
  | call target hc =>
    have hsp : (s.sp + 8).toInt = s.sp.toInt + 8 := toInt_add_of_small (n := 8) hc.1 (by omega)
    exact show 0 ≤ s.sb.toInt ∧ s.sb.toInt ≤ (s.sp + 8).toInt ∧ (s.sp + 8).toInt ≤ Config.memSize by
      omega
  | ret hl =>
    obtain ⟨-, hfp⟩ := hl
    have hsp : (s.fp - 4).toInt = s.fp.toInt - 4 :=
      toInt_sp_sub (s := s.withSp s.fp) (by omega)
    rw [canPopTwo, State.withSp_sp, State.withSp_sb] at hfp
    exact show 0 ≤ s.sb.toInt ∧ s.sb.toInt ≤ (s.fp - 4).toInt ∧ (s.fp - 4).toInt ≤ Config.memSize by
      omega
  | jz target ip hc => exact hpop hc
  | input v rest hin hm => exact hpush hm
  | print hc => exact hpop hc
  | unary r hi hc => exact ⟨hbase, hle, htop⟩
  | jump target => exact ⟨hbase, hle, htop⟩
  | nop => exact ⟨hbase, hle, htop⟩
  | halt => exact ⟨hbase, hle, htop⟩
  | inputWait hin => exact ⟨hbase, hle, htop⟩

end Sys2Proof.Machine
end

section
/-! The faults: which of them each Operation can end in, and which an instruction can record (R220). -/

namespace Sys2Proof.Machine

open Sys2Proof.Safety

/-! ### The faults of the Operations -/

/-- The faults of a pop, from the state whose stack it pops: an underflow, and, with the stack out of
bounds only, a slot outside memory (R61). -/
def PopFault (s : State) (k : FKind) : Prop :=
  k = .stackUnderflow ∨ (k = .memoryBounds ∧ ¬ StackInBounds s)

theorem popFault_of_pop32_error {s : State} {k : FKind} (h : pop32 s = .error k) : PopFault s k := by
  rcases pop32_error h with ⟨rfl, -⟩ | ⟨rfl, hbase, hc⟩
  · exact .inl rfl
  · exact .inr ⟨rfl, fun ⟨hzero, _, htop⟩ => hc ⟨hbase, by omega, htop⟩⟩

/-- The second of two pops has the faults of the first. -/
theorem popFault_of_second_pop {s : State} {k : FKind} (hc : canPop s)
    (h : pop32 (s.withSp (s.sp - 4)) = .error k) : PopFault s k := by
  have hsp := toInt_sp_sub hc.2.1
  rcases pop32_error h with ⟨rfl, -⟩ | ⟨rfl, hbase, hc'⟩
  · exact .inl rfl
  · rw [State.withSp_sp, State.withSp_sb] at hbase
    exact .inr ⟨rfl, fun ⟨hzero, _, htop⟩ => hc' (canPop_second ⟨by omega, by omega, htop⟩)⟩

/-- A push into the slot a pop has just freed does not fault, whatever else has changed. -/
theorem push32_ne_error_of_canPop {s u : State} {v : W32} {k : FKind} (hc : canPop s)
    (hu : u.sp = s.sp - 4) : push32 v u ≠ .error k := by
  intro h
  have hsp := toInt_sp_sub hc.2.1
  obtain ⟨-, hout⟩ := push32_error h
  rw [hu] at hout
  exact hout (show 0 ≤ (s.sp - 4).toInt ∧ (s.sp - 4).toInt + 4 ≤ Config.memSize by omega)

/-- The unary shape faults by its pop or by its function (R150). -/
theorem unary_error {op : W32 → Except FKind W32} {s : State} {k : FKind}
    (h : unary op s = .error k) : PopFault s k ∨ ∃ v, op v = .error k := by
  unfold unary at h
  split at h
  · rename_i hp
    cases h
    exact .inl (popFault_of_pop32_error hp)
  · rename_i v s₁ hp
    obtain ⟨hc, -, rfl⟩ := pop32_ok hp
    split at h
    · rename_i hop
      cases h
      exact .inr ⟨v, hop⟩
    · exact absurd h (push32_ne_error_of_canPop hc rfl)

/-- The binary shape faults by one of its pops or by its function (R140). -/
theorem binary_error {op : W32 → W32 → Except FKind W32} {s : State} {k : FKind}
    (h : binary op s = .error k) : PopFault s k ∨ ∃ l r, op l r = .error k := by
  unfold binary at h
  split at h
  · rename_i hp
    cases h
    exact .inl (popFault_of_pop32_error hp)
  · rename_i right s₁ hp
    obtain ⟨hc, -, rfl⟩ := pop32_ok hp
    split at h
    · rename_i hp₂
      cases h
      exact .inl (popFault_of_second_pop hc hp₂)
    · rename_i left s₂ hp₂
      obtain ⟨hc₂, -, rfl⟩ := pop32_ok hp₂
      split at h
      · rename_i hop
        cases h
        exact .inr ⟨left, right, hop⟩
      · exact absurd h (push32_ne_error_of_canPop hc₂ rfl)

/-- The load faults by its read or by its push (R181). -/
theorem loadAndPush_error {base : BaseReg} {disp : Int} {s : State} {k : FKind}
    (h : loadAndPush base disp s = .error k) : k = .memoryBounds ∨ k = .stackOverflow := by
  unfold loadAndPush at h
  split at h
  · rename_i hr
    cases h
    exact .inl (readWord_error hr)
  · exact .inr (push32_error h).1

/-- The store faults by its pop or by its write (R182). -/
theorem popAndStore_error {base : BaseReg} {disp : Int} {s : State} {k : FKind}
    (h : popAndStore base disp s = .error k) : PopFault s k ∨ k = .memoryBounds := by
  unfold popAndStore at h
  split at h
  · rename_i hp
    cases h
    exact .inl (popFault_of_pop32_error hp)
  · by_cases hm : inMemory (resolveEA base disp s) 4
    · rw [memWrite_of_inMemory _ _ hm] at h
      cases h
    · rw [memWrite_of_not_inMemory _ _ hm] at h
      exact .inr (by simpa using h.symm)

/-- JZ faults by its pop (R191). -/
theorem popAndBranch_error {target : Half} {s : State} {k : FKind}
    (h : popAndBranch target s = .error k) : PopFault s k := by
  unfold popAndBranch at h
  split at h
  · rename_i hp
    cases h
    exact popFault_of_pop32_error hp
  · cases h

/-- PRINT faults by its pop (R203). -/
theorem popAndOutput_error {s : State} {k : FKind} (h : popAndOutput s = .error k) :
    PopFault s k := by
  unfold popAndOutput at h
  split at h
  · rename_i hp
    cases h
    exact popFault_of_pop32_error hp
  · cases h

/-- CALL faults by one of its pushes (R192). -/
theorem enterFrame_error {target : Half} {s : State} {k : FKind}
    (h : enterFrame target s = .error k) : k = .stackOverflow := by
  unfold enterFrame at h
  split at h
  · rename_i hp
    cases h
    exact (push32_error hp).1
  · split at h
    · rename_i hp₂
      cases h
      exact (push32_error hp₂).1
    · cases h

/-- A pop faults in one of two ways, whatever the stack (R61). -/
theorem pop32_error_kind {s : State} {k : FKind} (h : pop32 s = .error k) :
    k = .stackUnderflow ∨ k = .memoryBounds :=
  (popFault_of_pop32_error h).imp_right And.left

/-- RET faults by one of its three pops, of which two are at an arbitrary `fp` (R193). -/
theorem leaveFrame_error {s : State} {k : FKind} (h : leaveFrame s = .error k) :
    k = .stackUnderflow ∨ k = .memoryBounds := by
  unfold leaveFrame at h
  split at h
  · rename_i hp
    cases h
    exact pop32_error_kind hp
  · split at h
    · rename_i hp₂
      cases h
      exact pop32_error_kind hp₂
    · split at h
      · rename_i hp₃
        cases h
        exact pop32_error_kind hp₃
      · rename_i hp₃
        obtain ⟨hc, -, rfl⟩ := pop32_ok hp₃
        exact absurd h (push32_ne_error_of_canPop hc rfl)

/-- The functions of DIV and MOD fault in one way (R144, R145). -/
theorem divOp_error {l r : W32} {k : FKind} (h : divOp l r = .error k) : k = .arithmeticFault := by
  unfold divOp at h
  split at h <;> cases h
  rfl

theorem modOp_error {l r : W32} {k : FKind} (h : modOp l r = .error k) : k = .arithmeticFault := by
  unfold modOp at h
  split at h <;> cases h
  rfl

/-! ### The fault an instruction records -/

/-- If the instruction begun in `s` faulted, it recorded one of the given kinds; only with the stack out
of bounds can a pop add `MemoryBounds` to them. -/
def FaultsWithin (ks : List FKind) (s t : State) : Prop :=
  t.status = .faulted → t.fkind ∈ ks ∨ (t.fkind = .memoryBounds ∧ ¬ StackInBounds s)

theorem faultsWithin_of_status_eq {ks : List FKind} {s t : State} (hs : s.status ≠ .faulted)
    (ht : t.status = s.status) : FaultsWithin ks s t := fun hf => absurd (ht ▸ hf) hs

/-- An instruction faults within the kinds its Operation ends in. -/
theorem faultsWithin_of_complete {ks : List FKind} {s t : State} {r : Except FKind State}
    (hs : s.status ≠ .faulted) (h : complete s r = .next t)
    (hok : ∀ u, r = .ok u → u.status = s.status)
    (herror : ∀ k, r = .error k → k ∈ ks ∨ (k = .memoryBounds ∧ ¬ StackInBounds s)) :
    FaultsWithin ks s t := by
  rcases complete_next h with hr | ⟨k, hr, rfl⟩
  · exact faultsWithin_of_status_eq hs (hok t hr)
  · exact fun _ => herror k hr

/-- A pop's fault is an underflow, or one of a stack out of bounds. -/
theorem PopFault.within {ks : List FKind} {s : State} {k : FKind} (h : PopFault s k)
    (hks : FKind.stackUnderflow ∈ ks) : k ∈ ks ∨ (k = .memoryBounds ∧ ¬ StackInBounds s) :=
  h.imp_left fun hk : k = .stackUnderflow => hk ▸ hks

/-- An instruction of the unary shape faults by its pop or by its function. -/
theorem unaryInstr_faultsWithin {op : W32 → Except FKind W32} {ks : List FKind} {s t : State}
    (hs : s.status ≠ .faulted) (hks : FKind.stackUnderflow ∈ ks)
    (hop : ∀ v k, op v = .error k → k ∈ ks) (h : unaryInstr op s = .next t) :
    FaultsWithin ks s t := by
  refine faultsWithin_of_complete hs h (fun u hu => ?_) fun k hk => ?_
  · obtain ⟨-, r, -, rfl⟩ := unary_ok hu
    rfl
  · rcases unary_error hk with hpop | ⟨v, hv⟩
    · exact hpop.within hks
    · exact .inl (hop v k hv)

/-- An instruction of the binary shape faults by one of its pops or by its function. -/
theorem binaryInstr_faultsWithin {op : W32 → W32 → Except FKind W32} {ks : List FKind} {s t : State}
    (hs : s.status ≠ .faulted) (hks : FKind.stackUnderflow ∈ ks)
    (hop : ∀ l r k, op l r = .error k → k ∈ ks) (h : binaryInstr op s = .next t) :
    FaultsWithin ks s t := by
  refine faultsWithin_of_complete hs h (fun u hu => ?_) fun k hk => ?_
  · obtain ⟨-, r, -, rfl⟩ := binary_ok hu
    rfl
  · rcases binary_error hk with hpop | ⟨l, r, hlr⟩
    · exact hpop.within hks
    · exact .inl (hop l r k hlr)

/-- A unary instruction whose function never faults only underflows. -/
theorem unaryInstr_only_underflows {op : W32 → Except FKind W32} {s t : State}
    (hs : s.status ≠ .faulted) (hop : ∀ v, ∃ r, op v = .ok r) (h : unaryInstr op s = .next t) :
    FaultsWithin [.stackUnderflow] s t := by
  refine unaryInstr_faultsWithin hs (by decide) (fun v k hv => ?_) h
  obtain ⟨r, hr⟩ := hop v
  cases hr.symm.trans hv

/-- A binary instruction whose function never faults only underflows. -/
theorem binaryInstr_only_underflows {op : W32 → W32 → Except FKind W32} {s t : State}
    (hs : s.status ≠ .faulted) (hop : ∀ l r, ∃ v, op l r = .ok v) (h : binaryInstr op s = .next t) :
    FaultsWithin [.stackUnderflow] s t := by
  refine binaryInstr_faultsWithin hs (by decide) (fun l r k hlr => ?_) h
  obtain ⟨v, hv⟩ := hop l r
  cases hv.symm.trans hlr

/-- INPUT faults by its push (R202). -/
theorem execInput_faultsWithin {s t : State} (hs : s.status ≠ .faulted)
    (h : execInput s = .next t) : FaultsWithin [.stackOverflow] s t := by
  unfold execInput at h
  split at h
  · cases h
    exact faultsWithin_of_status_eq hs rfl
  · split at h
    · rename_i hp
      cases h
      obtain ⟨-, rfl⟩ := push32_ok hp
      exact faultsWithin_of_status_eq hs rfl
    · rename_i hp
      cases h
      exact fun _ => .inl (by simp [(push32_error hp).1])

/-- Every instruction that faults records a kind of its row of R220, or, with the stack out of bounds,
`MemoryBounds`. -/
theorem exec_faultsWithin_mayRaise {i : Instr} {s t : State} (hs : s.status ≠ .faulted)
    (h : exec i s = .next t) : FaultsWithin (mayRaise i) s t := by
  cases i with
  | nop => cases h; exact faultsWithin_of_status_eq hs rfl
  | jump target => cases h; exact faultsWithin_of_status_eq hs rfl
  | halt => cases h; exact fun hf => by cases hf
  | add => exact binaryInstr_only_underflows hs (fun _ _ => ⟨_, rfl⟩) h
  | sub => exact binaryInstr_only_underflows hs (fun _ _ => ⟨_, rfl⟩) h
  | mul => exact binaryInstr_only_underflows hs (fun _ _ => ⟨_, rfl⟩) h
  | and => exact binaryInstr_only_underflows hs (fun _ _ => ⟨_, rfl⟩) h
  | or => exact binaryInstr_only_underflows hs (fun _ _ => ⟨_, rfl⟩) h
  | eq => exact binaryInstr_only_underflows hs (fun _ _ => ⟨_, rfl⟩) h
  | ne => exact binaryInstr_only_underflows hs (fun _ _ => ⟨_, rfl⟩) h
  | lt => exact binaryInstr_only_underflows hs (fun _ _ => ⟨_, rfl⟩) h
  | le => exact binaryInstr_only_underflows hs (fun _ _ => ⟨_, rfl⟩) h
  | gt => exact binaryInstr_only_underflows hs (fun _ _ => ⟨_, rfl⟩) h
  | ge => exact binaryInstr_only_underflows hs (fun _ _ => ⟨_, rfl⟩) h
  | div =>
    exact binaryInstr_faultsWithin (ks := mayRaise .div) hs (by decide)
      (fun _ _ _ hop => by simp [mayRaise, divOp_error hop]) h
  | mod =>
    exact binaryInstr_faultsWithin (ks := mayRaise .mod) hs (by decide)
      (fun _ _ _ hop => by simp [mayRaise, modOp_error hop]) h
  | neg => exact unaryInstr_only_underflows hs (fun _ => ⟨_, rfl⟩) h
  | not => exact unaryInstr_only_underflows hs (fun _ => ⟨_, rfl⟩) h
  | shl => exact unaryInstr_only_underflows hs (fun _ => ⟨_, rfl⟩) h
  | shr => exact unaryInstr_only_underflows hs (fun _ => ⟨_, rfl⟩) h
  | rol => exact unaryInstr_only_underflows hs (fun _ => ⟨_, rfl⟩) h
  | ror => exact unaryInstr_only_underflows hs (fun _ => ⟨_, rfl⟩) h
  | input => exact execInput_faultsWithin hs h
  | print =>
    refine faultsWithin_of_complete hs h (fun u hu => ?_) fun k hk => ?_
    · rw [(popAndOutput_ok hu).2]; rfl
    · exact (popAndOutput_error hk).within (by simp [mayRaise])
  | pushImm imm =>
    refine faultsWithin_of_complete hs h (fun u hu => ?_) fun k hk => ?_
    · rw [(push32_ok hu).2]; rfl
    · exact .inl (by simp [mayRaise, (push32_error hk).1])
  | pushInd base disp =>
    refine faultsWithin_of_complete hs h (fun u hu => ?_) fun k hk => ?_
    · rw [(loadAndPush_ok hu).2.2]; rfl
    · exact .inl (by simpa [mayRaise, or_comm] using loadAndPush_error hk)
  | pop base disp =>
    refine faultsWithin_of_complete hs h (fun u hu => ?_) fun k hk => ?_
    · rw [(popAndStore_ok hu).2.2]; rfl
    · rcases popAndStore_error hk with hpop | rfl
      · exact hpop.within (by simp [mayRaise])
      · exact .inl (by simp [mayRaise])
  | call target =>
    refine faultsWithin_of_complete hs h (fun u hu => ?_) fun k hk => ?_
    · rw [(enterFrame_ok hu).2]; rfl
    · exact .inl (by simp [mayRaise, enterFrame_error hk])
  | jz target =>
    refine faultsWithin_of_complete hs h (fun u hu => ?_) fun k hk => ?_
    · rw [(popAndBranch_ok hu).2]; rfl
    · exact (popAndBranch_error hk).within (by simp [mayRaise])
  | ret =>
    refine faultsWithin_of_complete hs h (fun u hu => ?_) fun k hk => ?_
    · rw [(leaveFrame_ok hu).2]; rfl
    · exact .inl (by simpa [mayRaise] using leaveFrame_error hk)

/-- Settles O44: only a stack out of bounds adds a fault to an instruction's row. -/
theorem faultsOfEachInstruction : Obligations.FaultsOfEachInstruction := by
  intro i s t hstack hs h ht
  exact (exec_faultsWithin_mayRaise hs h ht).resolve_right fun hout => hout.2 hstack

/-! ### The fault a step records -/

/-- The kinds an instruction can record are runtime kinds: neither "none" nor that of Load (R210, R220). -/
theorem mayRaise_subset (i : Instr) : mayRaise i ⊆ [FKind.stackUnderflow, .decodeFault, .stackOverflow,
    .memoryBounds, .fetchBounds, .arithmeticFault] := by
  cases i <;> simp [mayRaise]

/-- The kind a faulted step recorded is one of the six of a run (R210, R222). -/
theorem fkind_of_step {s t : State} (h : step s = .next t) (ht : t.status = .faulted) :
    t.fkind ∈ [FKind.stackUnderflow, .decodeFault, .stackOverflow, .memoryBounds, .fetchBounds,
      .arithmeticFault] := by
  obtain ⟨hrun, ⟨k, hf, rfl⟩ | ⟨i, -, hexec⟩⟩ := step_next h
  · rcases fetch_error hf with rfl | rfl <;> simp
  · rcases exec_faultsWithin_mayRaise (by simp [hrun]) hexec ht with hk | ⟨hk, -⟩
    · exact mayRaise_subset i hk
    · rw [hk]
      decide

end Sys2Proof.Machine
end

section
/-! Every step: when there is one, what it keeps, what a faulted one records, and the invariant of a run,
which Load and reset establish. -/

namespace Sys2Proof.Machine

open Sys2Proof.Safety

/-! ### When there is a step -/

/-- An instruction that ends gives a next state, its last one or its recorded fault. -/
theorem complete_total (s : State) (r : Except FKind State) : ∃ t, complete s r = .next t := by
  cases r with
  | ok u => exact ⟨u, rfl⟩
  | error k => exact ⟨raise k s.ip s, rfl⟩

/-- INPUT gives a next state, the unchanged one if it waits (R128, log 8). -/
theorem execInput_total (s : State) : ∃ t, execInput s = .next t := by
  unfold execInput
  split
  · exact ⟨s, rfl⟩
  · split
    · exact ⟨_, rfl⟩
    · exact complete_total _ _

/-- Every instruction gives a next state, from every state. -/
theorem exec_total (i : Instr) (s : State) : ∃ t, exec i s = .next t := by
  cases i with
  | input => exact execInput_total s
  | nop => exact ⟨_, rfl⟩
  | halt => exact ⟨_, rfl⟩
  | jump target => exact ⟨_, rfl⟩
  | _ => exact complete_total s _

/-- A running unit has a next state, whatever it fetches. -/
theorem step_total {s : State} (hs : s.status = .running) : ∃ t, step s = .next t := by
  cases hf : fetch s with
  | error k => exact ⟨_, step_of_fetch_error hs hf⟩
  | ok i =>
    rw [step_of_fetch_ok hs hf]
    exact exec_total i s

/-- Settles O33: a running unit has a step whatever it fetches, and a step comes from a running unit. -/
theorem noStepUnlessRunning : Obligations.NoStepUnlessRunning := by
  intro s
  refine ⟨⟨step_total, fun ⟨t, h⟩ => (step_next h).1⟩, fun hs => ?_, fun hs => ?_, fun hs => ?_⟩ <;>
    simp only [step, hs]

/-! ### What a step keeps -/

/-- Everything a step to a next state can be: a fault was raised, in the fetch or in the Operation, or the
fetched instruction was completed. -/
theorem step_raised_or_completes {s t : State} (h : step s = .next t) :
    s.status = .running ∧
      ((∃ k inp, t = raise k s.ip (s.withInput inp)) ∨ ∃ i, Completes i s t) := by
  obtain ⟨hrun, ⟨k, -, rfl⟩ | ⟨i, -, hexec⟩⟩ := step_next h
  · exact ⟨hrun, .inl ⟨k, s.input, rfl⟩⟩
  · rcases exec_next hexec with ⟨k, inp, rfl, -⟩ | hc
    · exact ⟨hrun, .inl ⟨k, inp, rfl⟩⟩
    · exact ⟨hrun, .inr ⟨i, hc⟩⟩

/-- Settles O45: neither a fault nor a completed instruction writes `sb`. -/
theorem noStepChangesTheStackBase : Obligations.NoStepChangesTheStackBase := by
  intro s t h
  obtain ⟨-, ⟨k, inp, rfl⟩ | ⟨i, hc⟩⟩ := step_raised_or_completes h
  · rfl
  · exact hc.sb_eq

/-- Settles O42: a completed instruction only adds written bytes and keeps the draw of the others. -/
theorem unwrittenByteIsStable : Obligations.UnwrittenByteIsStable := by
  intro s t a h ht hnone
  obtain ⟨-, ⟨k, inp, rfl⟩ | ⟨i, hc⟩⟩ := step_raised_or_completes h
  · exact absurd rfl ht
  · have hbefore := hc.writtenFrom.get?_eq_none hnone
    exact ⟨hbefore, by rw [State.byte, State.byte, hnone, hbefore, hc.writtenFrom.draw_eq]⟩

/-- Settles O43: the one fault entry writes the record, and the kinds are those of the instructions and of
the fetch. -/
theorem faultedStepRecordsItsInstruction : Obligations.FaultedStepRecordsItsInstruction := by
  intro s t h ht
  have hkind := fkind_of_step h ht
  obtain ⟨hrun, ⟨k, inp, rfl⟩ | ⟨i, hc⟩⟩ := step_raised_or_completes h
  · exact ⟨rfl, rfl, rfl, hkind⟩
  · exact absurd ht (hc.status_ne_faulted (by simp [hrun]))

/-- Settles O46: a fault does not halt and HALT does not fault; of the completed ones HALT alone halts. -/
theorem onlyHaltHalts : Obligations.OnlyHaltHalts := by
  intro i s t hrun h
  by_cases hi : i = .halt
  · subst hi
    cases h
    exact ⟨⟨fun _ => rfl, fun _ => rfl⟩, nofun⟩
  · rcases exec_next h with ⟨k, inp, rfl, -⟩ | hc
    · exact ⟨⟨nofun, fun hhalt => absurd hhalt hi⟩, nofun⟩
    · rw [hc.status_eq, if_neg hi, hrun]
      exact ⟨⟨nofun, fun hhalt => absurd hhalt hi⟩, nofun⟩

/-! ### The invariant -/

/-- Settles O52: a fault leaves no byte written and a kind recorded; a completed instruction writes inside
memory and keeps the stack in bounds. -/
theorem stepKeepsTheInvariant : Obligations.StepKeepsTheInvariant := by
  intro s t hinv h
  obtain ⟨hwf, hstack, -⟩ := hinv
  obtain ⟨hrun, ⟨k, inp, rfl⟩ | ⟨i, hc⟩⟩ := step_raised_or_completes h
  · refine ⟨raise_wf _ _ _, nofun, fun hf hnone => ?_⟩
    have hkind := fkind_of_step h hf
    rw [hnone] at hkind
    exact absurd hkind (by decide)
  · refine ⟨hc.writtenFrom.wf hwf, fun _ => hc.stackInBounds (hstack (.inl hrun)), fun hf => ?_⟩
    exact absurd hf (hc.status_ne_faulted (by simp [hrun]))

/-- Settles O50: nothing is written and every pointer is 0. -/
theorem resetMeetsTheInvariant : Obligations.ResetMeetsTheInvariant :=
  ⟨reset_mem_wf, fun _ => by decide, nofun⟩

/-- An accepted Load puts an image's length into a register without wrapping (R240). -/
theorem toInt_length_of_fits {image : List Byte} (h : image.length ≤ Config.memSize) :
    (BitVec.ofNat 32 image.length).toInt = image.length :=
  toInt_ofNat_of_small (h.trans_lt (by decide))

/-- Settles O51: an accepted Load starts with an empty stack at the image's end, a rejected one records
`LoadFault`. -/
theorem loadEstablishesTheInvariant : Obligations.LoadEstablishesTheInvariant := by
  intro image s
  refine ⟨State.load_wf image s, ?_⟩
  by_cases hfits : image.length ≤ Config.memSize
  · rw [State.load_of_fits s hfits]
    have hlen := toInt_length_of_fits hfits
    refine ⟨fun _ => ?_, nofun⟩
    exact show 0 ≤ (BitVec.ofNat 32 image.length).toInt ∧
      (BitVec.ofNat 32 image.length).toInt ≤ (BitVec.ofNat 32 image.length).toInt ∧
      (BitVec.ofNat 32 image.length).toInt ≤ Config.memSize by omega
  · rw [State.load_of_too_long s (by omega)]
    exact ⟨nofun, fun _ => nofun⟩

/-! ### Load -/

/-- Settles O47: the fields are set by definition, the length does not wrap, and the image's bytes read
back as they were written. -/
theorem loadStartsTheImageAtZero : Obligations.LoadStartsTheImageAtZero := by
  intro image s hfits
  have hlen : (BitVec.ofNat 32 image.length).toNat = image.length :=
    Nat.mod_eq_of_lt (hfits.trans_lt (by decide))
  rw [State.load_of_fits s hfits]
  refine ⟨rfl, hlen, hlen, hlen, rfl, rfl, rfl, fun i hi => ?_⟩
  have hwritten := Memory.get?_write_inside s.mem.redrawn 0 image i hi
  rw [Nat.zero_add] at hwritten
  exact congrArg (Option.getD · _) hwritten

/-- Settles O48: a rejected Load faults, and a faulted unit takes no step. -/
theorem loadRejectsALongImage : Obligations.LoadRejectsALongImage := by
  intro image s hlong
  rw [State.load_of_too_long s hlong]
  exact ⟨rfl, rfl, rfl, rfl⟩

/-- Settles O49: the empty image is accepted, its length is 0 and it writes nothing. -/
theorem resetIsTheEmptyLoad : Obligations.ResetIsTheEmptyLoad := by
  intro s
  rw [State.load_of_fits s (Nat.zero_le _)]
  exact ⟨rfl, rfl, rfl, rfl, rfl, rfl, rfl⟩

end Sys2Proof.Machine
end

section
/-! Arithmetic, bitwise and ordered comparison instructions (R141 to R148, R151, R163 to R166): their
functions as operations on words, and the two faults of a division. -/

namespace Sys2Proof.Machine

open Sys2Proof.Safety

/-! ### Wrapping (R6, D16) -/

theorem addOp_eq (l r : W32) : addOp l r = .ok (l + r) := by
  simp only [addOp, narrow, wrap32, BitVec.ofInt_add, BitVec.ofInt_toInt]

theorem wrap32_toInt_sub (l r : W32) : wrap32 (l.toInt - r.toInt) = l - r := by
  rw [wrap32, Int.sub_eq_add_neg, BitVec.ofInt_add, BitVec.ofInt_neg, BitVec.ofInt_toInt,
    BitVec.ofInt_toInt, BitVec.sub_eq_add_neg]

theorem subOp_eq (l r : W32) : subOp l r = .ok (l - r) :=
  congrArg Except.ok (wrap32_toInt_sub l r)

theorem mulOp_eq (l r : W32) : mulOp l r = .ok (l * r) := by
  simp only [mulOp, narrow, wrap32, BitVec.ofInt_mul, BitVec.ofInt_toInt]

theorem negOp_eq (v : W32) : negOp v = .ok (-v) := by
  simp only [negOp, narrow, wrap32, Int.zero_sub, BitVec.ofInt_neg, BitVec.ofInt_toInt]

/-- Settles O1: the three have the binary shape, and their functions are a 32-bit adder's and
multiplier's. -/
theorem addSubMulWrapModulo32Bits : Obligations.AddSubMulWrapModulo32Bits :=
  ⟨rfl, binaryRule_of_exec_eq (fun _ => rfl) addOp_eq,
    rfl, binaryRule_of_exec_eq (fun _ => rfl) subOp_eq,
    rfl, binaryRule_of_exec_eq (fun _ => rfl) mulOp_eq⟩

/-- Settles O2: the two have the binary shape, and their functions are the bitwise ones. -/
theorem andOrWorkBitByBit : Obligations.AndOrWorkBitByBit :=
  ⟨rfl, binaryRule_of_exec_eq (fun _ => rfl) fun _ _ => rfl,
    rfl, binaryRule_of_exec_eq (fun _ => rfl) fun _ _ => rfl⟩

/-- Settles O6: NEG has the unary shape, and its function is negation modulo `2 ^ 32`. -/
theorem negIsTwosComplement : Obligations.NegIsTwosComplement :=
  ⟨rfl, unaryRule_of_exec_eq (fun _ => rfl) negOp_eq⟩

/-! ### Ordered comparisons (R163 to R166) -/

/-- A comparison's result is 1 when its relation holds and 0 otherwise (R160). -/
theorem truthWord_decide (p : Prop) [Decidable p] : truthWord (decide p) = if p then 1 else 0 := by
  simp only [truthWord, decide_eq_true_eq]

/-- Settles O9: the four have the binary shape, and their functions decide the signed relation. -/
theorem orderedComparisonsAreSigned : Obligations.OrderedComparisonsAreSigned :=
  ⟨rfl, binaryRule_of_exec_eq (fun _ => rfl) fun _ _ => congrArg Except.ok (truthWord_decide _),
    rfl, binaryRule_of_exec_eq (fun _ => rfl) fun _ _ => congrArg Except.ok (truthWord_decide _),
    rfl, binaryRule_of_exec_eq (fun _ => rfl) fun _ _ => congrArg Except.ok (truthWord_decide _),
    rfl, binaryRule_of_exec_eq (fun _ => rfl) fun _ _ => congrArg Except.ok (truthWord_decide _)⟩

/-! ### Division (R144, R145, R151) -/

/-- A whole binary instruction with two operands for which its function faults (R140). -/
theorem binaryInstr_fault {op : W32 → W32 → Except FKind W32} {s : State} {k : FKind}
    (h : canPopTwo s)
    (hop : op (s.word (s.sp.toNat - 8)) (s.word (s.sp.toNat - 4)) = .error k) :
    binaryInstr op s = .next (raise k s.ip s) :=
  congrArg (complete s) (binary_fault (s := s.fetched .basic) h hop)

/-- An instruction of the binary shape whose function faults for the divisions without a quotient, and for
no others, follows the division rule (R144, R145). -/
theorem divisionRule_of_exec_eq {i : Instr} {f : W32 → W32 → Except FKind W32} {op : W32 → W32 → W32}
    (hexec : ∀ s, exec i s = binaryInstr f s)
    (hop : ∀ l r, f l r = if divisionFaults l r then .error .arithmeticFault else .ok (op l r)) :
    DivisionRule i op := by
  intro s hs
  refine ⟨fun hvalues => ?_, fun hshort => ?_⟩
  · obtain ⟨hbase, -, htop⟩ := hs
    have hc : canPopTwo s := ⟨by omega, by omega, htop⟩
    show if divisionFaults _ _ then _ else _
    split
    next hfault =>
      rw [hexec, binaryInstr_fault hc ((hop _ _).trans (if_pos hfault))]
      exact raises_raise .arithmeticFault s
    next hquotient =>
      exact ⟨_, (hexec s).trans (binaryInstr_value hc ((hop _ _).trans (if_neg hquotient))), rfl,
        State.word_store_same _ _ _, fun _ hb => State.byte_store_outside _ _ hb⟩
  · rw [hexec, binaryInstr_underflow hs hshort]
    exact raises_raise .stackUnderflow s

/-- Settles O3: DIV has the binary shape, and its function rounds toward zero where there is a quotient. -/
theorem divTruncatesTowardZero : Obligations.DivTruncatesTowardZero :=
  ⟨rfl, divisionRule_of_exec_eq (fun _ => rfl) fun _ _ => rfl⟩

/-- Settles O4: MOD has the binary shape, and its function is what DIV's quotient leaves. -/
theorem modLeavesTruncatedRemainder : Obligations.ModLeavesTruncatedRemainder :=
  ⟨rfl, divisionRule_of_exec_eq (fun _ => rfl) fun _ _ => rfl⟩

/-- DIV's quotient fits a word, but for `INT_MIN` by -1 (R144). -/
theorem toInt_wrap32_tdiv {l r : W32} (h : ¬ (l.toInt = -2147483648 ∧ r.toInt = -1)) :
    (wrap32 (l.toInt.tdiv r.toInt)).toInt = l.toInt.tdiv r.toInt := by
  have hne : l ≠ BitVec.intMin 32 ∨ r ≠ -1#32 := by
    by_contra hboth
    obtain ⟨rfl, rfl⟩ : l = BitVec.intMin 32 ∧ r = -1#32 := by tauto
    exact h (by decide)
  rw [wrap32, BitVec.toInt_ofInt, ← BitVec.toInt_sdiv, BitVec.toInt_sdiv_of_ne_or_ne _ _ hne]

/-- MOD's remainder fits a word, since it is smaller than the divisor (R145). -/
theorem toInt_wrap32_tmod (l r : W32) :
    (wrap32 (l.toInt - r.toInt * l.toInt.tdiv r.toInt)).toInt = l.toInt.tmod r.toInt := by
  rw [← Int.tmod_def, ← BitVec.toInt_srem, wrap32, BitVec.ofInt_toInt]

/-- A remainder of division toward zero is zero or has the sign of the dividend. -/
theorem tmod_eq_zero_or_same_sign (a b : Int) :
    a.tmod b = 0 ∨ (0 < a.tmod b ∧ 0 < a) ∨ (a.tmod b < 0 ∧ a < 0) := by
  by_cases hdvd : b ∣ a
  · exact .inl (Int.tmod_eq_zero_of_dvd hdvd)
  · have hsign : (a.tmod b).sign = a.sign := by rw [Int.sign_tmod, if_neg hdvd]
    rcases lt_trichotomy a 0 with ha | rfl | ha
    · rw [Int.sign_eq_neg_one_of_neg ha] at hsign
      exact .inr (.inr ⟨Int.neg_of_sign_eq_neg_one hsign, ha⟩)
    · exact absurd (dvd_zero b) hdvd
    · rw [Int.sign_eq_one_of_pos ha] at hsign
      exact .inr (.inl ⟨Int.pos_of_sign_eq_one hsign, ha⟩)

/-- Settles O5: neither result wraps, so the identity is that of integer division toward zero. -/
theorem quotientAndRemainderFitTogether : Obligations.QuotientAndRemainderFitTogether := by
  intro l r hr hmin
  have hquotient : ¬ divisionFaults l r := fun hfault => hfault.elim hr hmin
  have hq := toInt_wrap32_tdiv hmin
  have hm := toInt_wrap32_tmod l r
  refine ⟨_, _, if_neg hquotient, if_neg hquotient, ?_, ?_, ?_⟩
  · show l.toInt = (wrap32 (l.toInt.tdiv r.toInt)).toInt * r.toInt +
      (wrap32 (l.toInt - r.toInt * l.toInt.tdiv r.toInt)).toInt
    rw [hq, hm, Int.tdiv_mul_add_tmod]
  · show (wrap32 (l.toInt - r.toInt * l.toInt.tdiv r.toInt)).toInt.natAbs < r.toInt.natAbs
    rw [hm, Int.natAbs_tmod]
    exact Nat.mod_lt _ (Int.natAbs_pos.mpr hr)
  · have hsign := tmod_eq_zero_or_same_sign l.toInt r.toInt
    rwa [← hm] at hsign

end Sys2Proof.Machine
end

section
/-! The fetch and the observer: the three ways a fetch can fault (R121 to R123), the instruction the bytes
at `ip` decode to, the instructions that touch no operand, and the hook calls of a completed step. -/

namespace Sys2Proof.Machine

open Sys2Proof.Safety

/-! ### A fetch that faults -/

/-- An opcode fetch outside memory faults (R121, D15). -/
theorem fetch_of_ip_outside {s : State} (h : s.ip.toInt < 0 ∨ Config.memSize ≤ s.ip.toInt) :
    fetch s = .error .fetchBounds := by
  have hout : ¬ inMemory s.ip.toInt 1 := by omega
  rw [fetch_cases, if_neg hout]

/-- Settles O30: the opcode byte is the first thing fetched. -/
theorem opcodeFetchOutsideMemoryFaults : Obligations.OpcodeFetchOutsideMemoryFaults := by
  intro s hrun hout
  rw [step_of_fetch_error hrun (fetch_of_ip_outside hout)]
  exact raises_raise .fetchBounds s

/-- The opcode byte of every instruction is one of the 30 of R89. -/
theorem opcodeByte_legal (i : Instr) : (opcodeByte i).toNat ≤ 0x17 ∨ opcodeByte i = 0x58 ∨
    (0x98 ≤ (opcodeByte i).toNat ∧ (opcodeByte i).toNat ≤ 0x9C) := by
  cases i with
  | pushImm imm => simp
  | pushInd base disp => simp
  | pop base disp => simp
  | call target => simp
  | jump target => simp
  | jz target => simp
  | _ => decide

/-- A byte that selects a row is the opcode byte of an instruction. -/
theorem exists_opcodeByte_of_decodeOpcode {b : Byte} {sh : Shape} (h : decodeOpcode b = .ok sh) :
    ∃ i, opcodeByte i = b := by
  obtain ⟨m, f, hrow, rfl⟩ := row_of_decodeOpcode h
  cases hrow with
  | plain i hm hf => exact ⟨i, by rw [opcodeByte, hm, hf]⟩
  | pushImm => exact ⟨.pushImm 0, rfl⟩
  | pushInd => exact ⟨.pushInd .sp 0, rfl⟩
  | pop => exact ⟨.pop .sp 0, rfl⟩
  | target t => exact ⟨t.instr 0, by cases t <;> rfl⟩

/-- A first byte that is no opcode byte faults, wherever it stands (R90 to R92). -/
theorem fetch_of_illegal_byte {s : State} (hip : inMemory s.ip.toInt 1)
    (h : ¬ ((s.byte s.ip.toNat).toNat ≤ 0x17 ∨ s.byte s.ip.toNat = 0x58 ∨
      (0x98 ≤ (s.byte s.ip.toNat).toNat ∧ (s.byte s.ip.toNat).toNat ≤ 0x9C))) :
    fetch s = .error .decodeFault := by
  cases hop : decodeOpcode (s.byte s.ip.toNat) with
  | error e => simp only [fetch_cases, if_pos hip, hop]
  | ok sh =>
    obtain ⟨i, hi⟩ := exists_opcodeByte_of_decodeOpcode hop
    exact absurd (hi ▸ opcodeByte_legal i) h

/-- Settles O31: a byte that selects a row is the opcode byte of an instruction, and those are legal. -/
theorem illegalFirstByteFaults : Obligations.IllegalFirstByteFaults := by
  intro s hrun hlow hhigh hillegal
  rw [step_of_fetch_error hrun (fetch_of_illegal_byte ⟨hlow, hhigh⟩ hillegal)]
  exact raises_raise .decodeFault s

/-- The register tag of a 16-bit operand is in the two top bits of its second byte (R54, R86). -/
theorem tag_of_two_bytes (lo hi : Byte) :
    (hi ++ lo).extractLsb' Config.dispBits Config.tagBits = hi.extractLsb' 6 2 := by
  refine BitVec.eq_of_toNat_eq ?_
  have hlo := byte_lt lo
  rw [BitVec.extractLsb'_toNat, BitVec.extractLsb'_toNat, toNat_append_byte,
    Nat.shiftRight_eq_div_pow, Nat.shiftRight_eq_div_pow]
  simp only [Config.byteBits_eq, Config.dispBits_eq, Config.tagBits_eq]
  omega

/-- A packed operand with register tag 3 decodes to nothing (R93). -/
theorem decodeOperand_reservedTag (make : BaseReg → Int → Instr) {lo hi : Byte}
    (h : hi.extractLsb' 6 2 = 3) :
    decodeOperand (.baseDisp make) [lo, hi] = .error .reservedTag := by
  have htag : baseOfTag (hi.extractLsb' 6 2) = none := by rw [h]; rfl
  simp only [decodeOperand, half_of_two_bytes, tag_of_two_bytes, htag]

/-- A first byte that selects a row with a packed operand follows the reserved tag rule (R93, R123). -/
theorem reservedTagRule_of_decodeOpcode {first : Byte} {make : BaseReg → Int → Instr}
    (hrow : decodeOpcode first = .ok (.baseDisp make)) : ReservedTagRule first := by
  intro s hrun hmem hfirst htag
  subst hfirst
  have hip : inMemory s.ip.toInt 1 := by omega
  have hoperand : inMemory (s.ip.toInt + 1) (Shape.baseDisp make).format.operandLength :=
    show inMemory (s.ip.toInt + 1) 2 by omega
  have hbytes : s.bytes (s.ip.toNat + 1) (Shape.baseDisp make).format.operandLength =
      [s.byte (s.ip.toNat + 1), s.byte (s.ip.toNat + 2)] := rfl
  have hfetch : fetch s = .error .decodeFault := by
    simp only [fetch_cases, if_pos hip, hrow, if_pos hoperand, hbytes,
      decodeOperand_reservedTag make htag]
  rw [step_of_fetch_error hrun hfetch]
  exact raises_raise .decodeFault s

/-- The opcode byte `0x98` selects PUSH with a packed operand (R86, R89). -/
theorem decodeOpcode_pushInd : decodeOpcode 0x98 = .ok (.baseDisp .pushInd) := rfl

/-- The opcode byte `0x99` selects POP (R86, R89). -/
theorem decodeOpcode_pop : decodeOpcode 0x99 = .ok (.baseDisp .pop) := rfl

/-- Settles O32: both first bytes select a row with a packed operand. -/
theorem reservedRegisterTagFaults : Obligations.ReservedRegisterTagFaults :=
  ⟨reservedTagRule_of_decodeOpcode decodeOpcode_pushInd,
    reservedTagRule_of_decodeOpcode decodeOpcode_pop⟩

/-! ### A fetch that answers -/

/-- The first of several bytes, and the others. -/
theorem State.bytes_succ (s : State) (a n : Nat) :
    s.bytes a (n + 1) = s.byte a :: s.bytes (a + 1) n := by
  simp only [State.bytes, List.range_succ_eq_map, List.map_cons, List.map_map, Nat.add_zero]
  exact congrArg _ (List.map_congr_left fun i _ => congrArg s.byte (Nat.add_right_comm a i 1))

/-- Bytes at `ip` that decode to an instruction, with none left over, are fetched as it (R121 to R123). -/
theorem fetch_of_decode {s : State} {i : Instr} (hmem : inMemory s.ip.toInt i.length)
    (h : decode (s.bytes s.ip.toNat i.length) = .ok (i, [])) : fetch s = .ok i := by
  have hlen : i.length = i.format.operandLength + 1 := Nat.add_comm _ _
  rw [hlen] at hmem h
  rw [State.bytes_succ] at h
  obtain ⟨b, sh, operand, hbytes, hop, hoperand, hi⟩ := decode_eq_ok_iff.mp h
  rw [List.append_nil, List.cons.injEq] at hbytes
  obtain ⟨rfl, rfl⟩ := hbytes
  rw [State.length_bytes] at hoperand
  have hip : inMemory s.ip.toInt 1 := by omega
  have hrest : inMemory (s.ip.toInt + 1) i.format.operandLength := by omega
  simp only [fetch_cases, if_pos hip, hop, if_pos hrest, ← hoperand, hi]

/-- Settles O29: the fetch reads the same bytes the decoder is given. -/
theorem stepRunsTheDecodedInstruction : Obligations.StepRunsTheDecodedInstruction :=
  fun _ _ hrun hmem h => step_of_fetch_ok hrun (fetch_of_decode hmem h)

/-! ### NOP and HALT -/

/-- Settles O24: NOP's Operation is empty. -/
theorem nopOnlyAdvancesIp : Obligations.NopOnlyAdvancesIp := ⟨rfl, fun _ => rfl⟩

/-- Settles O25: HALT's Operation sets the status, and a halted unit takes no step. -/
theorem haltEndsTheRun : Obligations.HaltEndsTheRun := ⟨rfl, fun _ => ⟨_, rfl, rfl, rfl⟩⟩

/-! ### The observer (R129, R230) -/

/-- The hook at the end of the completed step of `i`: on halt if the unit has halted. -/
def endPoint (t : State) : HookPoint := if t.status = .halted then .onHalt else .afterExecute

/-- INPUT waits exactly when there is nothing on `IN` (R128). -/
theorem stalled_iff {i : Instr} {s : State} : stalled i s = true ↔ i = .input ∧ s.input = [] := by
  simp [stalled]

/-- The observer's two calls of a completed step (R129, R230). -/
theorem observe_of_step {s t : State} {i : Instr} (hrun : s.status = .running)
    (hf : fetch s = .ok i) (hwait : ¬ (i = .input ∧ s.input = [])) (h : step s = .next t)
    (ht : t.status ≠ .faulted) : observe s =
      some [hookCall .beforeFetch s.ip i s, hookCall (endPoint t) s.ip i t] := by
  have hexec : exec i s = .next t := by rwa [step_of_fetch_ok hrun hf] at h
  have hstalled : stalled i s = false := by rwa [← Bool.not_eq_true, stalled_iff]
  have hidle : t.status ≠ .idle := (onlyHaltHalts i s t hrun hexec).2
  cases hs : t.status with
  | running => simp [observe, hrun, hf, hstalled, hexec, hs, endPoint]
  | halted => simp [observe, hrun, hf, hstalled, hexec, hs, endPoint]
  | idle => exact absurd hs hidle
  | faulted => exact absurd hs ht

/-- What the observer was told of was a completed step (R129, R230). -/
theorem step_of_observe {s : State} {calls : List HookCall} (h : observe s = some calls) :
    ∃ i t, s.status = .running ∧ fetch s = .ok i ∧ ¬ (i = .input ∧ s.input = []) ∧
      step s = .next t ∧ t.status ≠ .faulted := by
  unfold observe at h
  split at h
  · rename_i i hrun hf
    split at h
    · cases h
    · rename_i hstalled
      rw [stalled_iff] at hstalled
      split at h
      · rename_i t hexec
        refine ⟨i, t, hrun, hf, hstalled, (step_of_fetch_ok hrun hf).trans hexec, fun ht => ?_⟩
        simp [ht] at h
      · cases h
      · cases h
  · cases h

/-- Settles O53: what the observer was told of was a completed step, and of such a step it is told just
the two calls. -/
theorem observerSeesACompletedStep : Obligations.ObserverSeesACompletedStep := by
  refine ⟨fun s calls h => ?_, fun s t i hrun hf hwait hstep ht =>
    observe_of_step hrun hf hwait hstep ht⟩
  obtain ⟨i, t, hrun, hf, hwait, hstep, ht⟩ := step_of_observe h
  have hcalls := observe_of_step hrun hf hwait hstep ht
  exact ⟨i, t, hf, hwait, hstep, ht, Option.some.inj (h.symm.trans hcalls)⟩

end Sys2Proof.Machine
end

section
/-! Memory and the stack instructions: a word read back after it was written (R51, R52), a pop after a
push (R60, R61), what leaves every byte as it was, and PUSH indirect, POP and INPUT as whole rules. -/

namespace Sys2Proof.Machine

open Sys2Proof.Safety

/-! ### Words and their bytes -/

/-- Byte `i` of a stored word is its bits `8i+7` to `8i` (R52, D8). -/
theorem State.byte_store_inside (s : State) (a : Nat) (v : W32) {i : Nat} (hi : i < 4) :
    (s.store a v).byte (a + i) = v.extractLsb' (8 * i) 8 := by
  have hbytes : bytesOfWord v = [v.extractLsb' 0 8, v.extractLsb' 8 8, v.extractLsb' 16 8,
    v.extractLsb' 24 8] := bytesOfValue_word v
  have hlen : i < (bytesOfWord v).length := by rwa [length_bytesOfWord]
  have hread : (s.store a v).byte (a + i) = (bytesOfWord v)[i] :=
    congrArg (Option.getD · _) (Memory.get?_write_inside s.mem a (bytesOfWord v) i hlen)
  rw [hread]
  simp only [hbytes]
  interval_cases i <;> rfl

/-- A stored word leaves every byte outside its four alone (R52). -/
theorem State.sameBytesOutside_store (s : State) (a : Nat) (v : W32) :
    SameBytesOutside s (s.store a v) a 4 := fun _ hb => State.byte_store_outside s v hb

/-- Four bytes that read as the same word are the same bytes. -/
theorem State.byte_eq_of_word_eq {s t : State} {a : Nat} (h : t.word a = s.word a) {i : Nat}
    (hi : i < 4) : t.byte (a + i) = s.byte (a + i) := by
  have hbytes : t.bytes a 4 = s.bytes a 4 := by
    rw [← bytesOfWord_wordOfBytes (t.length_bytes a 4), ← State.word_eq, h, State.word_eq,
      bytesOfWord_wordOfBytes (s.length_bytes a 4)]
  have hmap := List.map_inj_left.mp hbytes
  exact hmap i (List.mem_range.mpr hi)

/-- A state that differs in no byte but those of a word, and reads the same word, differs in no byte. -/
theorem State.byte_eq_of_same_word {s t : State} {a : Nat} (hout : SameBytesOutside s t a 4)
    (hword : t.word a = s.word a) (b : Nat) : t.byte b = s.byte b := by
  by_cases hin : a ≤ b ∧ b < a + 4
  · obtain ⟨i, rfl⟩ := Nat.exists_eq_add_of_le hin.1
    exact State.byte_eq_of_word_eq hword (by omega)
  · exact hout b (by omega)

/-- Settles O40: inside memory the access is a store, whose word and bytes read back; outside, both
accesses fault. -/
theorem wordReadsBackAsWritten : Obligations.WordReadsBackAsWritten := by
  refine fun addr v s => ⟨fun hin => ?_, fun hout =>
    ⟨memWrite_of_not_inMemory v s hout, readWord_of_not_inMemory s hout⟩⟩
  refine ⟨_, memWrite_of_inMemory v s hin, rfl, ?_, fun i hi => State.byte_store_inside _ _ _ hi,
    State.sameBytesOutside_store _ _ _⟩
  rw [readWord_of_inMemory _ hin, State.word_store_same]

/-- Settles O41: the slot of the push is the one the pop reads, and `sp` comes back. -/
theorem popReturnsWhatWasPushed : Obligations.PopReturnsWhatWasPushed := by
  intro v s hs hroom
  obtain ⟨hbase, hle, htop⟩ := hs
  obtain ⟨hsp, hspNat⟩ := toNat_sp_add (hbase.trans hle) htop
  refine ⟨_, push32_of_inMemory v s ⟨hbase.trans hle, hroom⟩, rfl, ?_⟩
  have hc : canPop ((s.store s.sp.toNat v).withSp (s.sp + 4)) :=
    show s.sb.toInt ≤ (s.sp + 4).toInt - 4 ∧ 0 ≤ (s.sp + 4).toInt - 4 ∧
      (s.sp + 4).toInt ≤ Config.memSize by omega
  rw [pop32_of_canPop hc, State.withSp_sp, hspNat, Nat.add_sub_cancel, BitVec.add_sub_cancel,
    State.word_withSp, State.word_store_same]
  rfl

/-! ### Rotating forth and back (S9) -/

/-- Settles O12: the second rotation stores the word the first one found. -/
theorem rolThenRorRestoresTheState : Obligations.RolThenRorRestoresTheState := by
  intro s hs hvalue
  obtain ⟨hbase, -, htop⟩ := hs
  have hc : canPop s := ⟨by omega, by omega, htop⟩
  have hrol : exec .rol s = .next ((s.fetched .basic).store (s.sp.toNat - 4)
      ((s.word (s.sp.toNat - 4)).rotateLeft 1)) := unaryInstr_value hc (rolOp_eq _)
  refine ⟨_, _, hrol, unaryInstr_value (r := s.word (s.sp.toNat - 4)) hc ?_, ?_, ?_⟩
  · exact (congrArg rorOp (State.word_store_same _ _ _)).trans (rorOp_rotateLeft _)
  · have hip : s.ip + 1 + 1 = s.ip + 2 := BitVec.add_assoc _ _ _
    rw [← hip]
    rfl
  · have hout : SameBytesOutside s _ (s.sp.toNat - 4) 4 := fun b hb =>
      (State.byte_store_outside _ (s.word (s.sp.toNat - 4)) hb).trans
        (State.byte_store_outside (s.fetched .basic) ((s.word (s.sp.toNat - 4)).rotateLeft 1) hb)
    exact State.byte_eq_of_same_word hout (State.word_store_same _ _ _)

/-! ### Packed operands -/

/-- Settles O14: the fetch moves `ip` alone, and inside memory its advance does not wrap. -/
theorem effectiveAddressOfEachBase : Obligations.EffectiveAddressOfEachBase := by
  refine fun s disp => ⟨rfl, rfl, fun ⟨hlow, hhigh⟩ => ?_⟩
  have hM : (Config.memSize : Int) = 16384 := rfl
  have hip : (s.ip + 3).toInt = s.ip.toInt + 3 := toInt_add_of_small (n := 3) hlow (by omega)
  exact congrArg (· + disp) hip

/-- PUSH indirect is its opcode byte and the packed operand, low byte first (R86, R105). -/
theorem encode_pushInd (base : BaseReg) (disp : Int) :
    encode (.pushInd base disp) = [0x98, (packedOperand base disp).extractLsb' 0 8,
      (packedOperand base disp).extractLsb' 8 8] := by
  rw [encode, opcodeByte_pushInd]
  exact congrArg (List.cons _) (bytesOfValue_half _)

/-- POP is its opcode byte and the packed operand, low byte first (R86, R105). -/
theorem encode_pop (base : BaseReg) (disp : Int) :
    encode (.pop base disp) = [0x99, (packedOperand base disp).extractLsb' 0 8,
      (packedOperand base disp).extractLsb' 8 8] := by
  rw [encode, opcodeByte_pop]
  exact congrArg (List.cons _) (bytesOfValue_half _)

/-! ### PUSH indirect (R181) -/

/-- PUSH indirect of a word in memory is a push of that word (R181). -/
theorem loadAndPush_of_inMemory {base : BaseReg} {disp : Int} {s : State}
    (h : inMemory (resolveEA base disp s) 4) :
    loadAndPush base disp s = push32 (s.word (resolveEA base disp s).toNat) s := by
  simp only [loadAndPush, readWord_of_inMemory s h]

/-- PUSH indirect with its word in memory and room for it (R181, R60). -/
theorem exec_pushInd_of_inMemory {base : BaseReg} {disp : Int} {s : State}
    (h : inMemory (resolveEA base disp (s.fetched .packed)) 4) (hroom : inMemory s.sp.toInt 4) :
    exec (.pushInd base disp) s = .next (((s.fetched .packed).store s.sp.toNat
      (s.word (resolveEA base disp (s.fetched .packed)).toNat)).withSp (s.sp + 4)) :=
  congrArg (complete s) ((loadAndPush_of_inMemory h).trans (push32_of_inMemory _ _ hroom))

/-- PUSH indirect with its word in memory and no room for it (R181, R60). -/
theorem exec_pushInd_overflow {base : BaseReg} {disp : Int} {s : State}
    (h : inMemory (resolveEA base disp (s.fetched .packed)) 4) (hfull : ¬ inMemory s.sp.toInt 4) :
    exec (.pushInd base disp) s = .next (raise .stackOverflow s.ip s) :=
  congrArg (complete s) ((loadAndPush_of_inMemory h).trans
    (push32_of_not_inMemory _ (s.fetched .packed) hfull))

/-- PUSH indirect of a word outside memory (R181, R214). -/
theorem exec_pushInd_of_not_inMemory {base : BaseReg} {disp : Int} {s : State}
    (h : ¬ inMemory (resolveEA base disp (s.fetched .packed)) 4) :
    exec (.pushInd base disp) s = .next (raise .memoryBounds s.ip s) := by
  have hload : loadAndPush base disp (s.fetched .packed) = .error .memoryBounds := by
    simp only [loadAndPush, readWord_of_not_inMemory _ h]
  exact congrArg (complete s) hload

/-- Settles O15: the opcode byte selects a row with a packed operand, and the word read and then the room
for it decide the rest. -/
theorem pushIndirectLoadsAWord : Obligations.PushIndirectLoadsAWord := by
  refine ⟨operandFetchRule_of_decodeOpcode decodeOpcode_pushInd,
    reservedTagRule_of_decodeOpcode decodeOpcode_pushInd, rfl, rfl, rfl, rfl, fun base disp s =>
    ⟨fun _ _ => ⟨_, toNat_packedOperand base disp, encode_pushInd base disp⟩, ?_⟩⟩
  intro ea
  split
  next hread =>
    split
    next hroom =>
      exact ⟨_, exec_pushInd_of_inMemory hread hroom, rfl, State.word_store_same _ _ _,
        State.sameBytesOutside_store (s.fetched .packed) _ _⟩
    next hfull =>
      rw [exec_pushInd_overflow hread hfull]
      exact raises_raise .stackOverflow s
  next houtside =>
    rw [exec_pushInd_of_not_inMemory houtside]
    exact raises_raise .memoryBounds s

/-! ### POP (R182, R184) -/

/-- POP with a value is a store of that value (R182). -/
theorem popAndStore_of_canPop {base : BaseReg} {disp : Int} {s : State} (h : canPop s) :
    popAndStore base disp s = memWrite (resolveEA base disp s) (s.word (s.sp.toNat - 4))
      (s.withSp (s.sp - 4)) := by
  simp only [popAndStore, pop32_of_canPop h]

/-- POP with a value and its address in memory (R182). -/
theorem exec_pop_of_inMemory {base : BaseReg} {disp : Int} {s : State} (hc : canPop s)
    (h : inMemory (resolveEA base disp (s.fetched .packed)) 4) :
    exec (.pop base disp) s = .next (((s.fetched .packed).withSp (s.sp - 4)).store
      (resolveEA base disp (s.fetched .packed)).toNat (s.word (s.sp.toNat - 4))) :=
  congrArg (complete s) ((popAndStore_of_canPop (s := s.fetched .packed) hc).trans
    (memWrite_of_inMemory _ _ h))

/-- POP with a value and its address outside memory (R182, R214). -/
theorem exec_pop_of_not_inMemory {base : BaseReg} {disp : Int} {s : State} (hc : canPop s)
    (h : ¬ inMemory (resolveEA base disp (s.fetched .packed)) 4) :
    exec (.pop base disp) s = .next (raise .memoryBounds s.ip s) :=
  congrArg (complete s) ((popAndStore_of_canPop (s := s.fetched .packed) hc).trans
    (memWrite_of_not_inMemory _ _ h))

/-- POP on an empty stack, whatever its address (R182, R61). -/
theorem exec_pop_underflow (base : BaseReg) (disp : Int) {s : State}
    (h : s.sp.toInt - 4 < s.sb.toInt) :
    exec (.pop base disp) s = .next (raise .stackUnderflow s.ip s) := by
  have hpop : popAndStore base disp (s.fetched .packed) = .error .stackUnderflow := by
    simp only [popAndStore, pop32_underflow (s := s.fetched .packed) h]
  exact congrArg (complete s) hpop

/-- Settles O16: the opcode byte selects a row with a packed operand, and whether there is a value and
then its address decide the rest. -/
theorem popStoresTheTopOfStack : Obligations.PopStoresTheTopOfStack := by
  refine ⟨operandFetchRule_of_decodeOpcode decodeOpcode_pop,
    reservedTagRule_of_decodeOpcode decodeOpcode_pop, rfl, rfl, fun base disp s =>
    ⟨fun _ _ => ⟨_, toNat_packedOperand base disp, encode_pop base disp⟩, ?_⟩⟩
  rintro ⟨hbase, -, htop⟩
  refine ⟨fun hempty => ?_, fun hvalue => ?_⟩
  · rw [exec_pop_underflow base disp (by omega)]
    exact raises_raise .stackUnderflow s
  · have hc : canPop s := ⟨by omega, by omega, htop⟩
    intro ea
    split
    next hin =>
      exact ⟨_, exec_pop_of_inMemory hc hin, rfl, State.word_store_same _ _ _,
        State.sameBytesOutside_store ((s.fetched .packed).withSp (s.sp - 4)) _ _⟩
    next hout =>
      rw [exec_pop_of_not_inMemory hc hout]
      exact raises_raise .memoryBounds s

/-- Settles O17: the address is that of the slot popped, so the word stored is the one that stands there. -/
theorem popSpMinusFourDiscardsTheTop : Obligations.PopSpMinusFourDiscardsTheTop := by
  intro s hs hvalue
  obtain ⟨hbase, -, htop⟩ := hs
  have hc : canPop s := ⟨by omega, by omega, htop⟩
  have hsp := toNat_of_toInt_nonneg (x := s.sp) (by omega)
  have hea : resolveEA .sp (-4) (s.fetched .packed) = s.sp.toInt - 4 := rfl
  have hin : inMemory (resolveEA .sp (-4) (s.fetched .packed)) 4 := by omega
  have hslot : (resolveEA .sp (-4) (s.fetched .packed)).toNat = s.sp.toNat - 4 := by omega
  refine ⟨_, exec_pop_of_inMemory hc hin, rfl, fun b => ?_⟩
  rw [hslot]
  have hout := State.sameBytesOutside_store ((s.fetched .packed).withSp (s.sp - 4)) (s.sp.toNat - 4)
    (s.word (s.sp.toNat - 4))
  exact State.byte_eq_of_same_word hout (State.word_store_same _ _ _) b

/-! ### INPUT (R202) -/

/-- INPUT with a value to take and room for it (R202). -/
theorem execInput_of_inMemory {s : State} {v : W32} {rest : List W32} (hin : s.input = v :: rest)
    (hroom : inMemory s.sp.toInt 4) : execInput s =
      .next ((((s.fetched .basic).withInput rest).store s.sp.toNat v).withSp (s.sp + 4)) := by
  have hpush := push32_of_inMemory v ((s.fetched .basic).withInput rest) hroom
  simp only [execInput, hin, hpush]
  rfl

/-- INPUT with a value to take and no room for it; the value may be gone (R202, U11). -/
theorem execInput_overflow {s : State} {v : W32} {rest : List W32} (hin : s.input = v :: rest)
    (hfull : ¬ inMemory s.sp.toInt 4) : execInput s =
      .next (raise .stackOverflow s.ip (s.withInput (inputAfterFault s rest))) := by
  have hpush := push32_of_not_inMemory v ((s.fetched .basic).withInput rest) hfull
  simp only [execInput, hin, hpush]
  rfl

/-- INPUT with nothing to take (R128, log 8). -/
theorem execInput_of_nil {s : State} (hin : s.input = []) : execInput s = .next s := by
  simp only [execInput, hin]

/-- Settles O26: the channel and then the room for a slot decide between the three outcomes. -/
theorem inputPushesTheNextValue : Obligations.InputPushesTheNextValue := by
  refine ⟨rfl, fun s => ⟨execInput_of_nil, fun v rest hin => ⟨fun hroom => ?_, fun hfull => ?_⟩⟩⟩
  · exact ⟨_, execInput_of_inMemory hin hroom, rfl, State.word_store_same _ _ _,
      State.sameBytesOutside_store ((s.fetched .basic).withInput rest) _ _⟩
  · exact ⟨_, execInput_overflow hin hfull, rfl, rfl, rfl, rfl⟩

end Sys2Proof.Machine
end

section
/-! CALL and RET together (R192, R193), and transfers to targets outside memory (R196). -/

namespace Sys2Proof.Machine

open Sys2Proof.Safety

/-! ### A frame opened and taken down again -/

/-- The end of a frame that lies in memory, two slots above its beginning, does not wrap. -/
theorem toInt_add_eight {p : Reg} (hlow : 0 ≤ p.toInt) (hhigh : p.toInt + 8 ≤ Config.memSize) :
    (p + 8).toInt = p.toInt + 8 ∧ (p + 8).toNat = p.toNat + 8 := by
  have hM : (Config.memSize : Int) = 16384 := rfl
  have hint : (p + 8).toInt = p.toInt + 8 := toInt_add_of_small (n := 8) hlow (by omega)
  have hp := toNat_of_toInt_nonneg hlow
  have hend := toNat_of_toInt_nonneg (x := p + 8) (by omega)
  exact ⟨hint, by omega⟩

/-- RET takes down a frame that begins at `p` with a value above it: the two slots go to `ip` and `fp`,
and the value to the first of them (R193). -/
theorem exec_ret_of_frame {u : State} {p : Reg} (hfp : u.fp = p + 8) (hlow : 0 ≤ p.toInt)
    (hhigh : p.toInt + 8 ≤ Config.memSize) (hbase : u.sb.toInt ≤ p.toInt)
    (hvalue : u.fp.toInt + 4 ≤ u.sp.toInt) (htop : u.sp.toInt ≤ Config.memSize) :
    ∃ w, exec .ret u = .next w ∧ w.ip = u.word p.toNat ∧ w.fp = u.word (p.toNat + 4) ∧
      w.sp = p + 4 ∧ w.word p.toNat = u.word (u.sp.toNat - 4) ∧ SameBytesOutside u w p.toNat 4 := by
  obtain ⟨hint, hnat⟩ := toInt_add_eight hlow hhigh
  rw [← hfp] at hint hnat
  have hframe : canPopTwo (u.withSp u.fp) :=
    show u.sb.toInt ≤ u.fp.toInt - 8 ∧ 0 ≤ u.fp.toInt - 8 ∧ u.fp.toInt ≤ Config.memSize by omega
  have hleave : canLeave u := ⟨⟨by omega, by omega, htop⟩, hframe⟩
  have hfirst : u.fp.toNat - 8 = p.toNat := by omega
  have hsecond : u.fp.toNat - 4 = p.toNat + 4 := by omega
  have hword := State.word_unframed (u.fetched .basic)
  have hsame := State.sameBytesOutside_unframed (u.fetched .basic)
  refine ⟨_, exec_ret_of_canLeave hleave, congrArg u.word hfirst, congrArg u.word hsecond, ?_,
    hfirst ▸ hword, hfirst ▸ hsame⟩
  show u.fp - 4 = p + 4
  rw [hfp, show p + 8 = p + 4 + 4 from (BitVec.add_assoc p 4 4).symm, BitVec.add_sub_cancel]

/-- Settles O22: the two slots RET reads are those CALL wrote, and the slot it writes is the first. -/
theorem retUndoesCall : Obligations.RetUndoesCall := by
  intro target s t u hs hroom hcall hfp hsb hvalue htop hfirst hsecond
  obtain ⟨hbase, hle, -⟩ := hs
  have hlow : 0 ≤ s.sp.toInt := hbase.trans hle
  obtain rfl : (s.fetched .packed).framed target = t :=
    Host.Outcome.next.inj ((exec_call_of_canPushTwo target ⟨hlow, hroom⟩).symm.trans hcall)
  have hnat : ((s.fetched .packed).framed target).fp.toNat = s.sp.toNat + 8 :=
    (toInt_add_eight hlow hroom).2
  rw [hnat, Nat.add_sub_cancel] at hfirst
  rw [hnat, show s.sp.toNat + 8 - 4 = s.sp.toNat + 4 from rfl] at hsecond
  have hbase' : u.sb.toInt ≤ s.sp.toInt := hsb ▸ hle
  obtain ⟨w, hret, hip, hcaller, hrest⟩ := exec_ret_of_frame hfp hlow hroom hbase' hvalue htop
  exact ⟨w, hret, hip.trans (hfirst.trans (State.word_framed_first target (s.fetched .packed))),
    hcaller.trans (hsecond.trans (State.word_framed_second target (s.fetched .packed))), hrest⟩

/-! ### Targets outside memory -/

/-- A running unit whose `ip` is outside memory after a transfer faults at the next fetch (R196). -/
theorem faultsAtNextFetch_of_ip_outside {t : State} (hrun : t.status = .running)
    (hout : t.ip.toInt < 0 ∨ Config.memSize ≤ t.ip.toInt) :
    FaultsAtNextFetch t.ip (.next t) :=
  ⟨t, rfl, hrun, rfl, opcodeFetchOutsideMemoryFaults t hrun hout⟩

/-- A 16-bit target outside memory is an address outside memory (R87). -/
theorem targetAddress_outside {target : Half} (h : Config.memSize ≤ target.toNat) :
    (Config.memSize : Int) ≤ (targetAddress target).toInt := by
  have htarget := half_lt target
  have hnat : (targetAddress target).toNat = target.toNat :=
    (BitVec.toNat_setWidth 32 target).trans (Nat.mod_eq_of_lt (by omega))
  have hsmall : 2 * (targetAddress target).toNat < 2 ^ 32 := by omega
  have hint : (targetAddress target).toInt = (targetAddress target).toNat :=
    BitVec.toInt_eq_toNat_of_lt hsmall
  omega

/-- Settles O23: each transfer completes without looking at its target, which the next fetch finds outside
memory. -/
theorem wildTargetFaultsAtTheNextFetch : Obligations.WildTargetFaultsAtTheNextFetch := by
  refine fun s hrun => ⟨fun target hwild => ?_, fun hs hvalue hframe htop hout => ?_⟩
  · have hout := targetAddress_outside hwild
    refine ⟨?_, fun hlow hroom => ?_, fun hs hvalue hzero => ?_⟩
    · rw [exec_jump]
      exact faultsAtNextFetch_of_ip_outside (t := s.withIp (targetAddress target)) hrun (.inr hout)
    · rw [exec_call_of_canPushTwo target ⟨hlow, hroom⟩]
      exact faultsAtNextFetch_of_ip_outside (t := (s.fetched .packed).framed target) hrun (.inr hout)
    · obtain ⟨hbase, -, htop⟩ := hs
      rw [exec_jz_of_canPop target ⟨by omega, by omega, htop⟩, if_pos hzero]
      exact faultsAtNextFetch_of_ip_outside
        (t := (s.withSp (s.sp - 4)).withIp (targetAddress target)) hrun (.inr hout)
  · obtain ⟨hbase, -, hsp⟩ := hs
    have hframe' : canPopTwo (s.withSp s.fp) :=
      show s.sb.toInt ≤ s.fp.toInt - 8 ∧ 0 ≤ s.fp.toInt - 8 ∧ s.fp.toInt ≤ Config.memSize by omega
    rw [exec_ret_of_canLeave ⟨⟨by omega, by omega, hsp⟩, hframe'⟩]
    exact faultsAtNextFetch_of_ip_outside (t := (s.fetched .basic).unframed) hrun hout

end Sys2Proof.Machine
end

section
/-! The assembler's image (R108, R110, R116): the sizes its instructions add up to, that every
instruction the parser lets through is well-formed, and that each decodes at its own offset. -/

namespace Sys2Proof.Assembler

/-! ### Linking (R109) -/

/-- What resolves is the instruction itself, or a transfer to what its label is bound to (R109). -/
theorem resolve_eq_ok {bs : List (Name × Nat)} {st : Stmt} {i : Instr} (h : resolve bs st = .ok i) :
    st = .plain i ∨ ∃ t l target, st = .labelled t l ∧ i = t.instr target := by
  cases st with
  | plain j => cases h; exact .inl rfl
  | labelled t l =>
    simp only [resolve] at h
    split at h
    · cases h
    · split at h
      · cases h
        exact .inr ⟨t, l, _, rfl, rfl⟩
      · cases h

/-- A line that links adds its resolved instruction, or nothing, to those of the lines after it. -/
theorem link_cons_eq_ok {bs : List (Name × Nat)} {l : Line} {ls : List Line} {is : List Instr}
    (h : link bs (l :: ls) = .ok is) : (l.stmt = none ∧ link bs ls = .ok is) ∨
      ∃ st i is', l.stmt = some st ∧ resolve bs st = .ok i ∧ link bs ls = .ok is' ∧
        is = i :: is' := by
  simp only [link] at h
  split at h
  · rename_i hstmt
    exact .inl ⟨hstmt, h⟩
  · rename_i st hstmt
    split at h
    · cases h
    · rename_i i hi
      split at h
      · cases h
      · rename_i is' his
        cases h
        exact .inr ⟨st, i, is', hstmt, hi, his, rfl⟩

/-! ### Sizes (R108) -/

/-- A resolved instruction is as long as the statement it comes from, its label known or not (R108). -/
theorem length_of_resolve {bs : List (Name × Nat)} {st : Stmt} {i : Instr}
    (h : resolve bs st = .ok i) : i.length = st.size := by
  obtain rfl | ⟨t, l, target, rfl, rfl⟩ := resolve_eq_ok h
  · rfl
  · cases t <;> rfl

/-- A program's instructions are as long together as its lines (R108). -/
theorem sum_length_of_link {bs : List (Name × Nat)} {lines : List Line} {is : List Instr}
    (h : link bs lines = .ok is) : (is.map Instr.length).sum = (lines.map Line.size).sum := by
  induction lines generalizing is with
  | nil => cases h; rfl
  | cons l ls ih =>
    rw [List.map_cons, List.sum_cons, Line.size]
    obtain ⟨hstmt, hls⟩ | ⟨st, i, is', hstmt, hi, hls, rfl⟩ := link_cons_eq_ok h
    · rw [ih hls, hstmt, Nat.zero_add]
    · rw [List.map_cons, List.sum_cons, ih hls, length_of_resolve hi, hstmt]

/-- An image is as long as its instructions together (R110). -/
theorem length_flatMap_encode (is : List Instr) :
    (is.flatMap encode).length = (is.map Instr.length).sum := by
  rw [List.length_flatMap]
  exact congrArg (fun f => (is.map f).sum) (funext length_encode)

/-- An image is the encoded bytes of the instructions of its source (R110). -/
theorem instrs_of_assemble {source : List Char} {image : List Byte}
    (h : assemble source = .ok image) :
    ∃ is, assembleInstrs source = .ok is ∧ image = is.flatMap encode := by
  unfold assemble at h
  split at h
  · cases h
  · rename_i is his
    cases h
    exact ⟨is, his, rfl⟩

/-- The instructions of a source are its parsed lines, linked with the bindings of them all (R109). -/
theorem lines_of_assembleInstrs {source : List Char} {is : List Instr}
    (h : assembleInstrs source = .ok is) :
    ∃ lines, parse source = .ok lines ∧ link (bindings 0 lines) lines = .ok is := by
  unfold assembleInstrs at h
  split at h
  · cases h
  · rename_i lines hlines
    exact ⟨lines, hlines, h⟩

/-- Settles O54: resolving a label changes no size, so the lines' sizes are the instructions'. -/
theorem imageLengthIsTheSumOfSizes : Obligations.ImageLengthIsTheSumOfSizes := by
  intro source lines image hparse hassemble
  obtain ⟨is, his, rfl⟩ := instrs_of_assemble hassemble
  obtain ⟨lines', hlines, hlink⟩ := lines_of_assembleInstrs his
  obtain rfl : lines = lines' := Except.ok.inj (hparse.symm.trans hlines)
  rw [length_flatMap_encode, sum_length_of_link hlink]

/-! ### Well-formed instructions (R105) -/

/-- What the parser lets through of a line: nothing, a well-formed instruction, or a transfer. -/
def StmtWf (st : Option Stmt) : Prop := ∀ i, st = some (.plain i) → i.wellFormed = true

/-- A parser of the rest of a line lets only well-formed instructions through. -/
def ParsesWf (r : Except Error (Option Stmt)) : Prop := ∀ st, r = .ok st → StmtWf st

theorem parsesWf_error (e : Error) : ParsesWf (.error e) := nofun

theorem parsesWf_endOfLine_plain (line : Nat) {i : Instr} (h : i.wellFormed = true)
    (ts : List Token) : ParsesWf (endOfLine line (.plain i) ts) := by
  unfold endOfLine
  split
  · intro st hst j hj
    cases hst
    cases hj
    exact h
  · exact parsesWf_error _

theorem parsesWf_labelOperand (line : Nat) (t : Transfer) (ts : List Token) :
    ParsesWf (labelOperand line t ts) := by
  unfold labelOperand endOfLine
  split
  · split
    · intro st hst i hi
      cases hst
      cases hi
    · exact parsesWf_error _
  · exact parsesWf_error _

theorem parsesWf_literal (line : Nat) (n : Int) (ts : List Token) :
    ParsesWf (literal line n ts) := by
  unfold literal
  split
  · exact parsesWf_endOfLine_plain line rfl ts
  · exact parsesWf_error _

section Indirect

variable (line : Nat) {make : BaseReg → Int → Instr}
  (hmake : ∀ r disp, (make r disp).wellFormed = dispInRange disp)
include hmake

theorem parsesWf_closeIndirect (r : BaseReg) (disp : Int) (ts : List Token) :
    ParsesWf (closeIndirect line make r disp ts) := by
  unfold closeIndirect
  split
  · split
    next hdisp => exact parsesWf_endOfLine_plain line ((hmake r disp).trans hdisp) _
    next => exact parsesWf_error _
  · exact parsesWf_error _

theorem parsesWf_signedDisp (r : BaseReg) (ts : List Token) :
    ParsesWf (signedDisp line make r ts) := by
  unfold signedDisp
  split
  · exact parsesWf_closeIndirect line hmake r _ _
  · exact parsesWf_closeIndirect line hmake r _ _
  · exact parsesWf_error _
  · exact parsesWf_error _
  · exact parsesWf_error _

theorem parsesWf_indirect (ts : List Token) : ParsesWf (indirect line make ts) := by
  unfold indirect
  split
  · exact parsesWf_signedDisp line hmake _ _
  · exact parsesWf_error _

end Indirect

theorem parsesWf_pushOperand (line : Nat) (ts : List Token) : ParsesWf (pushOperand line ts) := by
  unfold pushOperand
  split
  · exact parsesWf_indirect line (fun _ _ => rfl) _
  · exact parsesWf_literal line _ _
  · exact parsesWf_literal line _ _
  · exact parsesWf_literal line _ _
  · exact parsesWf_error _
  · exact parsesWf_error _
  · exact parsesWf_error _

theorem parsesWf_popOperand (line : Nat) (ts : List Token) : ParsesWf (popOperand line ts) := by
  unfold popOperand
  split
  · exact parsesWf_indirect line (fun _ _ => rfl) _
  · exact parsesWf_error _

/-- A row without an operand is a well-formed instruction (R89). -/
theorem wellFormed_of_shapeOf_basic {m : Mnemonic} {i : Instr}
    (h : shapeOf m .basic = some (.plain i)) : i.wellFormed = true := by
  cases row_of_shapeOf h with
  | plain i hm hf => exact (operandBytes_of_format_basic hf).2

theorem parsesWf_instruction (line : Nat) (ts : List Token) : ParsesWf (instruction line ts) := by
  unfold instruction
  split
  · intro st hst i hi
    cases hst
    cases hi
  · split
    · rename_i hrow
      exact parsesWf_endOfLine_plain line (wellFormed_of_shapeOf_basic hrow) _
    · split
      · exact parsesWf_pushOperand line _
      · exact parsesWf_popOperand line _
      · exact parsesWf_labelOperand line _ _
      · exact parsesWf_labelOperand line _ _
      · exact parsesWf_labelOperand line _ _
      · exact parsesWf_error _
  · exact parsesWf_error _

/-- A parsed line holds only a well-formed instruction (R102). -/
theorem stmtWf_of_parseLine {line : Nat} {ts : List Token} {l : Line}
    (h : parseLine line ts = .ok l) : StmtWf l.stmt := by
  unfold parseLine at h
  split at h
  · split at h
    · cases h
    · rename_i hst
      cases h
      exact parsesWf_instruction line _ _ hst
  · cases h
  · split at h
    · cases h
    · rename_i hst
      cases h
      exact parsesWf_instruction line _ _ hst

/-- Every line of a parsed source holds only a well-formed instruction. -/
theorem stmtWf_of_parseLines {line : Nat} {tss : List (List Token)} {lines : List Line}
    (h : parseLines line tss = .ok lines) : ∀ l ∈ lines, StmtWf l.stmt := by
  induction tss generalizing line lines with
  | nil => cases h; nofun
  | cons ts rest ih =>
    simp only [parseLines] at h
    split at h
    · cases h
    · rename_i l hl
      split at h
      · cases h
      · rename_i ls hls
        cases h
        exact List.forall_mem_cons.mpr ⟨stmtWf_of_parseLine hl, ih hls⟩

/-- A statement that is no ill-formed instruction resolves to a well-formed one. -/
theorem wellFormed_of_resolve {bs : List (Name × Nat)} {st : Stmt} {i : Instr}
    (hst : StmtWf (some st)) (h : resolve bs st = .ok i) : i.wellFormed = true := by
  obtain rfl | ⟨t, l, target, rfl, rfl⟩ := resolve_eq_ok h
  · exact hst i rfl
  · cases t <;> rfl

/-- Lines without an ill-formed instruction link to well-formed instructions. -/
theorem wellFormed_of_link {bs : List (Name × Nat)} {lines : List Line} {is : List Instr}
    (hlines : ∀ l ∈ lines, StmtWf l.stmt) (h : link bs lines = .ok is) :
    ∀ i ∈ is, i.wellFormed = true := by
  induction lines generalizing is with
  | nil => cases h; nofun
  | cons l ls ih =>
    obtain ⟨hl, hrest⟩ := List.forall_mem_cons.mp hlines
    obtain ⟨-, hls⟩ | ⟨st, i, is', hstmt, hi, hls, rfl⟩ := link_cons_eq_ok h
    · exact ih hrest hls
    · rw [hstmt] at hl
      exact List.forall_mem_cons.mpr ⟨wellFormed_of_resolve hl hi, ih hrest hls⟩

/-- Every instruction of an assembled source is well-formed. -/
theorem wellFormed_of_assembleInstrs {source : List Char} {is : List Instr}
    (h : assembleInstrs source = .ok is) : ∀ i ∈ is, i.wellFormed = true := by
  obtain ⟨lines, hparse, hlink⟩ := lines_of_assembleInstrs h
  exact wellFormed_of_link (stmtWf_of_parseLines hparse) hlink

/-- Settles O56: the bytes before an instruction are as many as its offset, and its own decode to it. -/
theorem assembledInstructionsDecode : Obligations.AssembledInstructionsDecode := by
  intro source image before after i hassemble hinstrs
  have hwf : i.wellFormed = true := wellFormed_of_assembleInstrs hinstrs i (by simp)
  obtain ⟨is, his, rfl⟩ := instrs_of_assemble hassemble
  obtain rfl : is = before ++ i :: after := Except.ok.inj (his.symm.trans hinstrs)
  refine ⟨after.flatMap encode, ?_⟩
  rw [List.flatMap_append, List.flatMap_cons, List.drop_left' (length_flatMap_encode before)]
  exact decodeInvertsEncode i _ hwf

end Sys2Proof.Assembler
end
